-- ==== Sys2Proof/Config.lean ====
section
/-! DEFINITION. What an integrator fixes before operation (spec 70_reset_and_hazards.md R113) and the one choice the
spec leaves free. -/

namespace Sys2Proof

/-- The two open parameters with their constraints (00_scope.md R9, R10). The default values only show that the
constraints can be met together. -/
structure Params where
  /-- The modulus of the external tick counter. -/
  tickPeriod : Nat := 2
  /-- The sync-gap threshold, in microseconds. -/
  syncGapUs : Nat := 1
  two_le_tickPeriod : 2 ≤ tickPeriod := by decide
  tickPeriod_le : tickPeriod ≤ 4294967296 := by decide
  one_le_syncGapUs : 1 ≤ syncGapUs := by decide
  syncGapUs_le : syncGapUs ≤ 65536 := by decide
  syncGapUs_le_span : syncGapUs ≤ 4 * (tickPeriod - 1) := by decide
deriving Inhabited

/-- DESIGN CHOICE (log entry 4): the parameters of this machine. The constant has no body, so a claim about it is a
claim for every legal pair (93_implementation_defined.md U1, U2: 'claims hold for every value'). -/
opaque Config.params : Params

/-- DESIGN CHOICE (log entry 3): whether the `n`-th pair of simultaneous presentations runs its edge event first. The
spec fixes no priority and admits both orders (60_exceptions.md R98); a free value, with no body. -/
opaque Config.edgeFirst : Nat → Bool

end Sys2Proof
end

