-- ==== Sys2Proof/Word.lean ====
section
/-! DEFINITION. The words on the block's ports (spec 30_encoding.md R40 to R43) and a pulse-width register's word
(10_state.md R15). -/

namespace Sys2Proof

/-- A 16-bit register or operand field (00_scope.md R11). -/
abbrev U16 := BitVec 16

/-- The edge port word `edge_tick[31:0]` (30_encoding.md R41). -/
abbrev EdgeWord := BitVec 32

/-- The command port word `cmd[99:0]` (30_encoding.md R42). -/
abbrev CmdWord := BitVec 100

/-- The response port word `rsp[143:0]` (30_encoding.md R43). -/
abbrev RspWord := BitVec 144

/-- One word presented on one input port. The port an operation arrives on decides which operations it can be and
what it may write (60_exceptions.md R101). -/
inductive PortWord where
  | edge (w : EdgeWord)
  | command (w : CmdWord)
deriving DecidableEq, Repr

end Sys2Proof
end

