-- ==== Sys2Proof/Machine/Operands.lean ====
section
/-! DEFINITION. The fixed constants (spec 00_scope.md R8), the bit and integer primitives (R12, R14) and the operand
forms and packing of port words (20_memory.md R30; 30_encoding.md R50). -/

namespace Sys2Proof.Machine

/-- Microseconds per timer tick (R8). -/
abbrev tickUs : Nat := 4

/-- Lower end of the valid pulse-width range (R8). -/
abbrev pwMin : Nat := 1000

/-- Upper end of the valid pulse-width range (R8). -/
abbrev pwMax : Nat := 2000

/-- Neutral pulse width (R8). -/
abbrev pwCenter : Nat := 1500

/-- Upper edge of the signed mapper's dead zone (R8). -/
abbrev dzHi : Nat := 1550

/-- Lower edge of the signed mapper's dead zone (R8). -/
abbrev dzLo : Nat := 1450

/-- Largest drive and wheel magnitude (R8). -/
abbrev outMax : Nat := 255

/-- Hysteresis band (R8). -/
abbrev hysBand : Nat := 2

/-- `CLS_HI[c]` (R8; 41_classifier.md R66). -/
def clsHi (c : Fin 6) : Nat := if c = 2 then 1500 else 1550

/-- `CLS_LO[c]` (R8; 41_classifier.md R66). -/
def clsLo (c : Fin 6) : Nat := if c = 2 then 1500 else 1450

/-- `u16(x)`, the 16-bit unsigned encoding (R12). -/
def u16 (x : Nat) : U16 := BitVec.ofNat 16 x

/-- `i16(x)`, the 16-bit two's complement encoding (R12). -/
def i16 (x : Int) : U16 := BitVec.ofInt 16 x

/-- `s16(w)`, the integer a two's complement field holds (R12). -/
def s16 (w : U16) : Int := if w.toNat < 32768 then w.toNat else (w.toNat : Int) - 65536

/-- `tdiv(a, b)`: the quotient rounded toward zero (R14). -/
def tdiv (a b : Int) : Int := if 0 ≤ a then a / b else -((-a) / b)

/-- `clamp(v)` (R14). -/
def clamp (v : Nat) : Nat := min (max v pwMin) pwMax

/-- Elements of width `w` in one word, element `k` in bits `[w*k + w - 1 : w*k]` (20_memory.md R30). -/
def pack (w : Nat) : List (BitVec w) → Nat
  | [] => 0
  | x :: xs => x.toNat + 2 ^ w * pack w xs

/-- The `op` field of a command word (30_encoding.md R42). -/
def opField (w : CmdWord) : BitVec 4 := w.extractLsb' 96 4

/-- Operand field `k` of a command word: `w[16*k + 15 : 16*k]` (30_encoding.md R46 to R49). -/
def argField (w : CmdWord) (k : Nat) : U16 := w.extractLsb' (16 * k) 16

/-- Operand field `k` read as `u16` (R50). -/
def argU16 (w : CmdWord) (k : Nat) : Nat := (argField w k).toNat

/-- Operand field `k` read as `i16` (R50). -/
def argI16 (w : CmdWord) (k : Nat) : Int := s16 (argField w k)

/-- `w[95:lo] = 0`: the bits a format marks 'must be 0' are 0 (30_encoding.md R45 to R49). -/
def reservedClear (w : CmdWord) (lo : Nat) : Bool := w.extractLsb' lo (96 - lo) == 0

/-- The command word with operation code `op` and the operand fields `args`, field 0 lowest (R42, R30). -/
def commandWord (op : Nat) (args : List U16) : CmdWord := BitVec.ofNat 100 (op * 2 ^ 96 + pack 16 args)

end Sys2Proof.Machine
end

