-- ==== Sys2Proof/Machine/Flags.lean ====
section
/-! DEFINITION. The block has no status flags and no condition codes (spec 10_state.md R21). What stands here instead are
the conditions its comparators compute inside one operation and do not keep. -/

namespace Sys2Proof.Machine

/-- `el < SYNC_GAP_US`: a pulse; otherwise a sync gap (40_decoder.md R59). -/
def isPulse (P : Params) (el : Nat) : Bool := decide (el < P.syncGapUs)

/-- The upper comparator of channel `c`, on a clamped width (41_classifier.md R69). -/
def aboveHi (c : Fin 6) (w : Nat) : Bool := decide (w > clsHi c)

/-- The lower comparator of channel `c`, on a clamped width (41_classifier.md R69). -/
def belowLo (c : Fin 6) (w : Nat) : Bool := decide (w < clsLo c)

/-- `abs(m - p) <= 2`: the change is suppressed (42_mapper.md R79). -/
def withinBand (m : Nat) (p : Int) : Bool := decide (((m : Int) - p).natAbs ≤ hysBand)

/-- `m > 255`: the mixer scales (43_mixer.md R84). -/
def saturates (m : Nat) : Bool := decide (m > outMax)

end Sys2Proof.Machine
end

