-- ==== Sys2Proof/Machine/State.lean ====
section
/-! DEFINITION. The state of the block (spec 10_state.md), its ports as events (30_encoding.md R40), the reasons a step
can stop, and the state after reset. -/

namespace Sys2Proof.Machine

/-- A ChannelFrame: six pulse widths, index-addressed 0 to 5 (10_state.md R15). -/
structure Frame where
  ch0 : U16
  ch1 : U16
  ch2 : U16
  ch3 : U16
  ch4 : U16
  ch5 : U16
deriving DecidableEq, Repr

/-- Unit U1: all the state the spec gives the block (10_state.md R15 to R18). -/
structure Decoder where
  /-- `ch[0..5]` (R15). -/
  ch : Frame
  /-- `idx`: the slot of the next pulse, 6 while awaiting sync (R16). -/
  idx : Fin 7
  /-- `lt`: the tick of the latest edge event (R17; log entry 5 on its width). -/
  lt : BitVec 32
deriving DecidableEq, Repr

/-- What arrives at the input ports at one moment (30_encoding.md R40). -/
inductive Presentation where
  /-- One port presents a word. -/
  | one (p : PortWord)
  /-- Both ports present a word at the same moment (60_exceptions.md R98). -/
  | both (tick : EdgeWord) (cmd : CmdWord)
  /-- `rst` is asserted (70_reset_and_hazards.md R111). -/
  | reset
deriving DecidableEq, Repr

/-- One response: `rsp_valid = 1` with these `rsp_err` and `rsp` (30_encoding.md R43). -/
structure Response where
  err : Bool
  data : RspWord
deriving DecidableEq, Repr

/-- The machine between two operations. -/
structure State where
  /-- Unit U1, the only state of the block (10_state.md R18). -/
  u1 : Decoder
  /-- What the two agents and the reset input will present, in order (20_memory.md R36; log entry 1). -/
  inputs : List Presentation
  /-- Every response presented so far, oldest first (30_encoding.md R40, R43; log entry 2). -/
  responses : List Response
  /-- The model's own counter: how many simultaneous presentations were put in order (log entry 3). -/
  arbs : Nat
deriving DecidableEq, Repr

/-- Faults: none. 'No operation of units U1 to U4 raises an exception, traps, aborts or reports an error for any operand
value' (60_exceptions.md R90), and the block never halts (70_reset_and_hazards.md R130); log entry 14. Having no fault
is safe or unsafe only as those two rules are right. -/
inductive Fault where
deriving DecidableEq, Repr

/-- Refusals. No meaning raises one. -/
inductive Refusal where
  /-- An operation without a meaning, raised by exec's arm for it alone; safe. No arm of this model raises it. -/
  | notModelled (mnemonic : String)
deriving DecidableEq, Repr

/-- U1 after reset (10_state.md R25, R26, R27; 70_reset_and_hazards.md R111). -/
def Decoder.reset : Decoder where
  ch := ⟨1500#16, 1500#16, 1500#16, 1500#16, 1500#16, 1500#16⟩
  idx := 6
  lt := 0#32

/-- The machine right after reset: U1 as R111 says, no response presented (R112), nothing presented to it yet, and the
model's counter at 0 (log entry 3). -/
def State.reset : State where
  u1 := Decoder.reset
  inputs := []
  responses := []
  arbs := 0

end Sys2Proof.Machine
end

