-- ==== Sys2Proof/Machine/Ops.lean ====
section
/-! DEFINITION. The named operations over U1's registers and the response port, the one error (IllegalCmd), and reset. -/

namespace Sys2Proof.Machine

/-- `ch[i]` (spec 00_scope.md R13). -/
def Frame.get (f : Frame) (i : Fin 6) : U16 :=
  match i.val with
  | 0 => f.ch0
  | 1 => f.ch1
  | 2 => f.ch2
  | 3 => f.ch3
  | 4 => f.ch4
  | _ => f.ch5

/-- `ch[i] <- v` (00_scope.md R13). -/
def Frame.set (f : Frame) (i : Fin 6) (v : U16) : Frame :=
  match i.val with
  | 0 => { f with ch0 := v }
  | 1 => { f with ch1 := v }
  | 2 => { f with ch2 := v }
  | 3 => { f with ch3 := v }
  | 4 => { f with ch4 := v }
  | _ => { f with ch5 := v }

/-- The six entries in order. -/
def Frame.toList (f : Frame) : List U16 := [f.ch0, f.ch1, f.ch2, f.ch3, f.ch4, f.ch5]

/-- Microseconds from tick `lt` to tick `cur`, modulo the counter's period: `((cur - lt) mod TICK_PERIOD) * 4`
(40_decoder.md R58, R59). -/
def elapsedUs (P : Params) (cur lt : Nat) : Nat := (((cur : Int) - lt) % P.tickPeriod).toNat * tickUs

/-- `lt <- cur` (40_decoder.md R58). -/
def Decoder.recordTick (d : Decoder) (cur : Nat) : Decoder := { d with lt := BitVec.ofNat 32 cur }

/-- A pulse of `el` microseconds: stored in the open slot, which advances; dropped while awaiting sync
(40_decoder.md R58; saturation at 6 of 10_state.md R22). -/
def Decoder.pulse (d : Decoder) (el : Nat) : Decoder :=
  if h : d.idx.val < 6 then
    { d with ch := d.ch.set ⟨d.idx.val, h⟩ (u16 el), idx := ⟨d.idx.val + 1, by omega⟩ }
  else d

/-- A sync gap: the next pulse belongs to slot 0; no channel value changes (40_decoder.md R58, R62). -/
def Decoder.syncGap (d : Decoder) : Decoder := { d with idx := 0 }

/-- The edge event on U1, with the parameters as an argument (40_decoder.md R58; its entry, 60_exceptions.md R99,
saves nothing and changes no mode). -/
def Decoder.edgeEvent (P : Params) (tick : Nat) (d : Decoder) : Decoder :=
  let cur := tick % P.tickPeriod
  let el := elapsedUs P cur d.lt.toNat
  if isPulse P el then (d.recordTick cur).pulse el else (d.recordTick cur).syncGap

/-- One response on the response port. -/
def State.respond (s : State) (r : Response) : State := { s with responses := s.responses ++ [r] }

/-- The response to a legal command: `rsp_err = 0` and the result (30_encoding.md R43). -/
def State.answer (s : State) (data : RspWord) : State := s.respond ⟨false, data⟩

/-- Taking the one error: IllegalCmd presents `rsp_err = 1`, `rsp = 0` and changes no state; nothing is saved and there
is nothing to return from (60_exceptions.md R91). -/
def State.raiseIllegalCmd (s : State) : State := s.respond ⟨true, 0#144⟩

/-- `rst` asserted: U1 takes its reset values (70_reset_and_hazards.md R111). -/
def State.assertReset (s : State) : State := { s with u1 := Decoder.reset }

/-- The frame result (30_encoding.md R51). -/
def frameResult (f : Frame) : RspWord := BitVec.ofNat 144 (pack 16 f.toList)

/-- The scalar result (30_encoding.md R53). -/
def scalarResult (y : Int) : RspWord := BitVec.ofNat 144 (pack 16 [i16 y])

end Sys2Proof.Machine
end

