-- ==== Sys2Proof/Machine/Classifier.lean ====
section
/-! DEFINITION. Unit U2, the stick classifier: CLS (spec 41_classifier.md), with its result layout (30_encoding.md R52). -/

namespace Sys2Proof.Machine

/-- A PositionBucket: a tag and the clamped pulse width (00_scope.md glossary; 41_classifier.md R69). -/
inductive Bucket where
  | centered (w : Nat)
  | atMin (w : Nat)
  | atMax (w : Nat)
deriving DecidableEq, Repr

/-- A StickMovement: the two axes of one stick (00_scope.md glossary). -/
structure StickMovement where
  vertical : Bucket
  horizontal : Bucket
deriving DecidableEq, Repr

/-- A classification result: the four sticks (41_classifier.md R67). -/
structure Classification where
  right : StickMovement
  left : StickMovement
  vra : StickMovement
  vrb : StickMovement
deriving DecidableEq, Repr

/-- `bucket(c, v)`: clamp, then compare strictly (R68, R69). -/
def bucket (c : Fin 6) (v : Nat) : Bucket :=
  let w := clamp v
  if aboveHi c w then .atMax w else if belowLo c w then .atMin w else .centered w

/-- The default of the two slots no channel feeds (R67). -/
def unfedBucket : Bucket := .centered pwCenter

/-- The fixed assignment of channels to sticks and axes (R66, R70). -/
def classify (v0 v1 v2 v3 v4 v5 : Nat) : Classification where
  right := ⟨bucket 1 v1, bucket 0 v0⟩
  left := ⟨bucket 2 v2, bucket 3 v3⟩
  vra := ⟨unfedBucket, bucket 4 v4⟩
  vrb := ⟨unfedBucket, bucket 5 v5⟩

/-- One slot: the tag in bits 17:16 (00 Centered, 01 AtMin, 10 AtMax), the width in bits 15:0 (30_encoding.md R52). -/
def slotBits : Bucket → BitVec 18
  | .centered w => 0#2 ++ u16 w
  | .atMin w => 1#2 ++ u16 w
  | .atMax w => 2#2 ++ u16 w

/-- The eight slots in order: sticks Right, Left, Vra, Vrb, vertical before horizontal (30_encoding.md R52). -/
def Classification.slots (k : Classification) : List Bucket :=
  [k.right.vertical, k.right.horizontal, k.left.vertical, k.left.horizontal,
   k.vra.vertical, k.vra.horizontal, k.vrb.vertical, k.vrb.horizontal]

/-- The classification result: eight slots of 18 bits, slot 0 lowest (30_encoding.md R52). -/
def classificationResult (k : Classification) : RspWord := BitVec.ofNat 144 (pack 18 (k.slots.map slotBits))

/-- CLS v0, …, v5 (R70): reads and writes no state. -/
def execCls (v0 v1 v2 v3 v4 v5 : Nat) (s : State) : Host.Outcome State Fault Refusal :=
  .next (s.answer (classificationResult (classify v0 v1 v2 v3 v4 v5)))

end Sys2Proof.Machine
end

