-- ==== Sys2Proof/Machine/Mapper.lean ====
section
/-! DEFINITION. Unit U3, the axis mapper: MAP.LIN, MAP.FOLD, MAP.SGN, MAP.HYS (spec 42_mapper.md). Every strategy clamps
first (R73), multiplies first and divides last (R74). -/

namespace Sys2Proof.Machine

/-- Strategy 1, linear unsigned (R75). -/
def linMagnitude (v : Nat) : Nat := (clamp v - pwMin) * outMax / 1000

/-- `fold(v)`: strategy 2, folded unsigned (R76). -/
def foldMagnitude (v : Nat) : Nat :=
  if clamp v < pwCenter then (pwCenter - clamp v) * outMax / 500 else (clamp v - pwCenter) * outMax / 500

/-- Strategy 3, signed with fixed dead zone; the sign is applied after the division (R77, R74). -/
def sgnMagnitude (v : Nat) : Int :=
  if clamp v > dzHi then (((clamp v - dzHi) * outMax / 450 : Nat) : Int)
  else if clamp v < dzLo then -(((dzLo - clamp v) * outMax / 450 : Nat) : Int)
  else 0

/-- Strategy 4, unsigned with hysteresis around the previous output (R79). -/
def hysMagnitude (v : Nat) (p : Int) : Int :=
  if withinBand (foldMagnitude v) p then p else foldMagnitude v

/-- MAP.LIN v (R75): reads and writes no state. -/
def execMapLin (v : Nat) (s : State) : Host.Outcome State Fault Refusal :=
  .next (s.answer (scalarResult (linMagnitude v)))

/-- MAP.FOLD v (R76): reads and writes no state. -/
def execMapFold (v : Nat) (s : State) : Host.Outcome State Fault Refusal :=
  .next (s.answer (scalarResult (foldMagnitude v)))

/-- MAP.SGN v (R77): reads and writes no state. -/
def execMapSgn (v : Nat) (s : State) : Host.Outcome State Fault Refusal :=
  .next (s.answer (scalarResult (sgnMagnitude v)))

/-- MAP.HYS v, p (R79): reads and writes no state; the previous output is an operand (R80). -/
def execMapHys (v : Nat) (p : Int) (s : State) : Host.Outcome State Fault Refusal :=
  .next (s.answer (scalarResult (hysMagnitude v p)))

end Sys2Proof.Machine
end

