-- ==== Sys2Proof/Machine/Mixer.lean ====
section
/-! DEFINITION. Unit U4, the drive mixer: MIX (spec 43_mixer.md), with its result layout (30_encoding.md R53). -/

namespace Sys2Proof.Machine

/-- Four values, one per wheel (43_mixer.md R83). -/
structure Wheels where
  a : Int
  b : Int
  c : Int
  d : Int
deriving DecidableEq, Repr

/-- The value of one wheel, numbered a, b, c, d from 0. -/
def Wheels.get (w : Wheels) (k : Fin 4) : Int :=
  match k.val with
  | 0 => w.a
  | 1 => w.b
  | 2 => w.c
  | _ => w.d

/-- The same function on each of the four. -/
def Wheels.map (g : Int → Int) (w : Wheels) : Wheels := ⟨g w.a, g w.b, g w.c, g w.d⟩

/-- Stage 1: the four sums (R83). -/
def mixSums (fwd strafe rot : Int) : Wheels where
  a := fwd + strafe + rot
  b := fwd - strafe - rot
  c := fwd - strafe + rot
  d := fwd + strafe - rot

/-- The largest absolute value of the four (R84). -/
def Wheels.peak (w : Wheels) : Nat := max (max w.a.natAbs w.b.natAbs) (max w.c.natAbs w.d.natAbs)

/-- Stage 2, the proportional clamper: exact scaling, rounded toward zero (R84, R85). -/
def normalise (w : Wheels) : Wheels :=
  if saturates w.peak then w.map fun x => tdiv (x * outMax) w.peak else w

/-- The mix result, wheel a lowest (30_encoding.md R53). -/
def wheelsResult (w : Wheels) : RspWord := BitVec.ofNat 144 (pack 16 [i16 w.a, i16 w.b, i16 w.c, i16 w.d])

/-- MIX f, s, r (R86): reads and writes no state. -/
def execMix (fwd strafe rot : Int) (s : State) : Host.Outcome State Fault Refusal :=
  .next (s.answer (wheelsResult (normalise (mixSums fwd strafe rot))))

end Sys2Proof.Machine
end

