-- ==== Sys2Proof/Machine/PulseDecoder.lean ====
section
/-! DEFINITION. Unit U1, the decoder: EDGE and SNAP (spec 40_decoder.md). -/

namespace Sys2Proof.Machine

/-- EDGE tick (R58): produces no response and never fails (R61). -/
def execEdge (tick : Nat) (s : State) : Host.Outcome State Fault Refusal :=
  .next { s with u1 := s.u1.edgeEvent Config.params tick }

/-- SNAP (R63): writes no state, returns the six channel values (R64). -/
def execSnap (s : State) : Host.Outcome State Fault Refusal :=
  .next (s.answer (frameResult s.u1.ch))

end Sys2Proof.Machine
end

