-- ==== Sys2Proof/Syntax.lean ====
section
/-! DEFINITION. The operation set (spec 30_encoding.md R44). Operands are the decoded integers the semantic rules
work on (R50), not bit patterns; WellFormed.lean holds their ranges. -/

namespace Sys2Proof

/-- The eight operations, one constructor per row of the opcode table. -/
inductive Instr where
  /-- EDGE tick: one edge event (40_decoder.md R58). -/
  | edge (tick : Nat)
  /-- SNAP: atomic copy of the channel table (40_decoder.md R63). -/
  | snap
  /-- CLS v0, …, v5: classify one frame (41_classifier.md R70). -/
  | cls (v0 v1 v2 v3 v4 v5 : Nat)
  /-- MAP.LIN v: linear unsigned (42_mapper.md R75). -/
  | mapLin (v : Nat)
  /-- MAP.FOLD v: folded unsigned (42_mapper.md R76). -/
  | mapFold (v : Nat)
  /-- MAP.SGN v: signed with fixed dead zone (42_mapper.md R77). -/
  | mapSgn (v : Nat)
  /-- MAP.HYS v, p: unsigned with hysteresis (42_mapper.md R79). -/
  | mapHys (v : Nat) (p : Int)
  /-- MIX f, s, r: mecanum mix and proportional clamp (43_mixer.md R86). -/
  | mix (fwd strafe rot : Int)
deriving DecidableEq, Repr

end Sys2Proof
end

