-- ==== Sys2Proof/Machine/Dispatch.lean ====
section
/-! DEFINITION. One arm per operation (spec 30_encoding.md R44), each one call of its meaning. -/

namespace Sys2Proof.Machine

def exec (i : Instr) (s : State) : Host.Outcome State Fault Refusal :=
  match i with
  -- U1
  | .edge tick => Sys2Proof.Machine.execEdge tick s
  | .snap => Sys2Proof.Machine.execSnap s
  -- U2
  | .cls v0 v1 v2 v3 v4 v5 => Sys2Proof.Machine.execCls v0 v1 v2 v3 v4 v5 s
  -- U3
  | .mapLin v => Sys2Proof.Machine.execMapLin v s
  | .mapFold v => Sys2Proof.Machine.execMapFold v s
  | .mapSgn v => Sys2Proof.Machine.execMapSgn v s
  | .mapHys v p => Sys2Proof.Machine.execMapHys v p s
  -- U4
  | .mix fwd strafe rot => Sys2Proof.Machine.execMix fwd strafe rot s

end Sys2Proof.Machine
end

