-- ==== Sys2Proof/WellFormed.lean ====
section
/-! DEFINITION. The operand ranges of each operation (spec 30_encoding.md R56, R50). -/

namespace Sys2Proof

/-- `0 <= tick < 2^32` (R56, format E of R41). -/
def tickInRange (t : Nat) : Bool := decide (t < 4294967296)

/-- A `u16` operand: 0 to 65535 (R50). -/
def u16InRange (v : Nat) : Bool := decide (v ≤ 65535)

/-- An `i16` operand: -32768 to 32767 (R50). -/
def i16InRange (x : Int) : Bool := decide (-32768 ≤ x) && decide (x ≤ 32767)

/-- Every operand lies in the range its field can carry. -/
def Instr.wellFormed : Instr → Bool
  | .edge t => tickInRange t
  | .snap => true
  | .cls v0 v1 v2 v3 v4 v5 =>
      u16InRange v0 && u16InRange v1 && u16InRange v2 && u16InRange v3 && u16InRange v4 && u16InRange v5
  | .mapLin v => u16InRange v
  | .mapFold v => u16InRange v
  | .mapSgn v => u16InRange v
  | .mapHys v p => u16InRange v && i16InRange p
  | .mix f s r => i16InRange f && i16InRange s && i16InRange r

/-- `Instr.wellFormed` as a proposition, for hypotheses. -/
abbrev Instr.WellFormed (i : Instr) : Prop := i.wellFormed = true

end Sys2Proof
end

