-- ==== Sys2Proof/Decode.lean ====
section
/-! DEFINITION. Decoding a port word, total and rejecting by name (spec 30_encoding.md R41 to R54), the encoder, and the
opcode table's masks and patterns. -/

namespace Sys2Proof

open Sys2Proof.Machine

/-- Why a command word is illegal (R54). Both give the one error IllegalCmd (60_exceptions.md R91). -/
inductive IllegalCmd where
  /-- `op` is 0x0, 0x3 or 0x9 to 0xF. -/
  | unassignedOp (op : BitVec 4)
  /-- `op` is legal and a bit its format marks 'must be 0' is 1. -/
  | reservedBits (op : BitVec 4)
deriving DecidableEq, Repr

/-- What a port word decodes to. -/
inductive Decoded where
  | ok (i : Instr)
  | illegal (why : IllegalCmd)
deriving DecidableEq, Repr

/-- `i`, unless a bit of `w[95:lo]` is 1 (R45 to R49, R54). -/
def withReserved (w : CmdWord) (lo : Nat) (i : Instr) : Decoded :=
  if reservedClear w lo then .ok i else .illegal (.reservedBits (opField w))

/-- A command word's operation (R44 to R49), or why it is illegal (R54). -/
def decodeCommand (w : CmdWord) : Decoded :=
  match opField w with
  | 0x1#4 => withReserved w 0 .snap
  | 0x2#4 => .ok (.cls (argU16 w 0) (argU16 w 1) (argU16 w 2) (argU16 w 3) (argU16 w 4) (argU16 w 5))
  | 0x4#4 => withReserved w 16 (.mapLin (argU16 w 0))
  | 0x5#4 => withReserved w 16 (.mapFold (argU16 w 0))
  | 0x6#4 => withReserved w 16 (.mapSgn (argU16 w 0))
  | 0x7#4 => withReserved w 32 (.mapHys (argU16 w 0) (argI16 w 1))
  | 0x8#4 => withReserved w 48 (.mix (argI16 w 0) (argI16 w 1) (argI16 w 2))
  | op => .illegal (.unassignedOp op)

/-- A port word's operation. Every edge word is an EDGE (R41). -/
def decode : PortWord → Decoded
  | .edge w => .ok (.edge w.toNat)
  | .command w => decodeCommand w

/-- The word of a well-formed operation, on the port it arrives on (R41 to R49). -/
def encode : Instr → PortWord
  | .edge t => .edge (BitVec.ofNat 32 t)
  | .snap => .command (commandWord 0x1 [])
  | .cls v0 v1 v2 v3 v4 v5 => .command (commandWord 0x2 [u16 v0, u16 v1, u16 v2, u16 v3, u16 v4, u16 v5])
  | .mapLin v => .command (commandWord 0x4 [u16 v])
  | .mapFold v => .command (commandWord 0x5 [u16 v])
  | .mapSgn v => .command (commandWord 0x6 [u16 v])
  | .mapHys v p => .command (commandWord 0x7 [u16 v, i16 p])
  | .mix f s r => .command (commandWord 0x8 [i16 f, i16 s, i16 r])

/-- A row of the opcode table on the command port: a word is the row's operation when its bits under the mask are the
pattern. -/
structure OpcodeRow where
  mnemonic : String
  mask : CmdWord
  pattern : CmdWord
deriving DecidableEq, Repr

/-- The seven command rows of spec/opcode_table.json, its own match and mask. -/
def commandRows : List OpcodeRow := [
  ⟨"SNAP", 0xFFFFFFFFFFFFFFFFFFFFFFFFF#100, 0x1000000000000000000000000#100⟩,
  ⟨"CLS", 0xF000000000000000000000000#100, 0x2000000000000000000000000#100⟩,
  ⟨"MAP.LIN", 0xFFFFFFFFFFFFFFFFFFFFF0000#100, 0x4000000000000000000000000#100⟩,
  ⟨"MAP.FOLD", 0xFFFFFFFFFFFFFFFFFFFFF0000#100, 0x5000000000000000000000000#100⟩,
  ⟨"MAP.SGN", 0xFFFFFFFFFFFFFFFFFFFFF0000#100, 0x6000000000000000000000000#100⟩,
  ⟨"MAP.HYS", 0xFFFFFFFFFFFFFFFFF00000000#100, 0x7000000000000000000000000#100⟩,
  ⟨"MIX", 0xFFFFFFFFFFFFF000000000000#100, 0x8000000000000000000000000#100⟩]

/-- An operation's mnemonic (R44). -/
def Instr.mnemonic : Instr → String
  | .edge _ => "EDGE"
  | .snap => "SNAP"
  | .cls .. => "CLS"
  | .mapLin _ => "MAP.LIN"
  | .mapFold _ => "MAP.FOLD"
  | .mapSgn _ => "MAP.SGN"
  | .mapHys .. => "MAP.HYS"
  | .mix .. => "MIX"

/-- The port word that the opcode table's number `w` of `nbits` bits stands for: the table's only row of at most 32 bits
is the edge port's, the others are command words (log entry 13). -/
def tablePortWord (nbits w : Nat) : PortWord :=
  if nbits ≤ 32 then .edge (BitVec.ofNat 32 w) else .command (BitVec.ofNat 100 w)

/-- What the decoder reads from the opcode table's number `w`. -/
def decodeTableWord (nbits w : Nat) : Option Instr :=
  match decode (tablePortWord nbits w) with
  | .ok i => some i
  | .illegal _ => none

end Sys2Proof
end

