-- ==== Sys2Proof/Machine/Fetch.lean ====
section
/-! DEFINITION. Taking the next operation from the ports: the total order of spec 20_memory.md R36 and the free choice
between simultaneous presentations (60_exceptions.md R98). The block itself fetches nothing (10_state.md R22). -/

namespace Sys2Proof.Machine

/-- What the ports give the next step, with the state that remains. -/
inductive Fetched where
  /-- Nothing is presented. -/
  | idle
  /-- `rst` is asserted. -/
  | reset (s : State)
  /-- A legal operation. -/
  | run (i : Instr) (s : State)
  /-- A command word the command decoder rejects before any unit sees it (60_exceptions.md R91). -/
  | illegal (s : State)
deriving DecidableEq, Repr

/-- One word presented on its port. -/
def present (p : PortWord) (s : State) : Fetched :=
  match decode p with
  | .ok i => .run i s
  | .illegal _ => .illegal s

/-- The first of two simultaneous presentations; the other stays at the head, and is executed right after it with its
word unchanged (60_exceptions.md R97, R98). -/
def arbitrate (tick : EdgeWord) (cmd : CmdWord) (rest : List Presentation) (s : State) : Fetched :=
  if Config.edgeFirst s.arbs then
    present (.edge tick) { s with inputs := .one (.command cmd) :: rest, arbs := s.arbs + 1 }
  else
    present (.command cmd) { s with inputs := .one (.edge tick) :: rest, arbs := s.arbs + 1 }

/-- The next operation in the total order. -/
def fetch (s : State) : Fetched :=
  match s.inputs with
  | [] => .idle
  | .reset :: rest => .reset { s with inputs := rest }
  | .one p :: rest => present p { s with inputs := rest }
  | .both tick cmd :: rest => arbitrate tick cmd rest s

/-- The state with one more presentation, ahead of all others. -/
def State.presentFirst (s : State) (p : PortWord) : State := { s with inputs := .one p :: s.inputs }

end Sys2Proof.Machine
end

