-- ==== Sys2Proof/Machine/Step.lean ====
section
/-! DEFINITION. One step: one operation of one agent, executed atomically (spec 20_memory.md R32). -/

namespace Sys2Proof.Machine

/-- The next operation is taken from the ports and executed. With nothing presented the state does not change
(60_exceptions.md R110; log entry 7). -/
def step (s : State) : Host.Outcome State Fault Refusal :=
  match fetch s with
  | .idle => .next s
  | .reset s' => .next s'.assertReset
  | .run i s' => exec i s'
  | .illegal s' => .next s'.raiseIllegalCmd

/-- `s` with the opcode table's word `w` presented next on its port (log entries 1 and 13). -/
def State.withFetchWord (s : State) (nbits w : Nat) : State := s.presentFirst (tablePortWord nbits w)

end Sys2Proof.Machine
end

