-- ==== Sys2Proof/Machine/Assembler.lean ====
section
/-! DEFINITION. The assembler text of spec 30_encoding.md R56 and the pseudo-operations of R57, on lists of characters.
What the rules leave open about blanks, letter case and digits is log entry 12. -/

namespace Sys2Proof.Machine

/-- What one line of assembler text gives. -/
inductive AsmLine where
  /-- Nothing but blanks and a comment. -/
  | blank
  /-- One operation. -/
  | op (i : Instr)
  /-- Not a line of the syntax, or an operand outside its range. -/
  | refused
deriving DecidableEq, Repr

/-- A pseudo-operation or a source name (R57). -/
inductive Pseudo where
  | mix2 (f s : Int)
  | snapshot
  | classify (v0 v1 v2 v3 v4 v5 : Nat)
  | mapSigned (v : Nat)
  | mapHysteresis (v : Nat) (p : Int)
  | mix (f s r : Int)
deriving DecidableEq, Repr

/-- What a pseudo-operation expands to (R57). -/
def Pseudo.expand : Pseudo → Instr
  | .mix2 f s => .mix f s 0
  | .snapshot => .snap
  | .classify v0 v1 v2 v3 v4 v5 => .cls v0 v1 v2 v3 v4 v5
  | .mapSigned v => .mapSgn v
  | .mapHysteresis v p => .mapHys v p
  | .mix f s r => .mix f s r

/-- Blank characters between the parts of a line. -/
def isBlank (c : Char) : Bool := c == ' ' || c == '\t'

/-- A text without the blanks at its two ends. -/
def trim (cs : List Char) : List Char := ((cs.dropWhile isBlank).reverse.dropWhile isBlank).reverse

/-- The parts of a text between its commas. -/
def splitCommas : List Char → List (List Char)
  | [] => [[]]
  | c :: cs =>
    if c == ',' then [] :: splitCommas cs
    else match splitCommas cs with
      | [] => [[c]]
      | h :: t => (c :: h) :: t

/-- The value of a digit in a base, or none. -/
def digitValue (base : Nat) (c : Char) : Option Nat :=
  let n := c.toNat
  let v := if 48 ≤ n ∧ n ≤ 57 then n - 48 else if 65 ≤ n ∧ n ≤ 70 then n - 55 else if 97 ≤ n ∧ n ≤ 102 then n - 87 else 16
  if v < base then some v else none

/-- The value of a run of digits read after the value `acc`. -/
def digitsValue (base : Nat) (acc : Nat) : List Char → Option Nat
  | [] => some acc
  | c :: cs => match digitValue base c with
    | some d => digitsValue base (acc * base + d) cs
    | none => none

/-- A number: decimal with an optional leading '-', or '0x' and hexadecimal digits (R56). -/
def numberValue : List Char → Option Int
  | [] => none
  | ['-'] => none
  | '-' :: cs => (digitsValue 10 0 cs).map fun n => -(n : Int)
  | '0' :: 'x' :: c :: cs => (digitsValue 16 0 (c :: cs)).map fun n => (n : Int)
  | c :: cs => (digitsValue 10 0 (c :: cs)).map fun n => (n : Int)

/-- The numbers of an operand list, all of them or none. -/
def operandValues : List (List Char) → Option (List Int)
  | [] => some []
  | t :: ts => match numberValue (trim t), operandValues ts with
    | some n, some ns => some (n :: ns)
    | _, _ => none

/-- The text after the mnemonic as numbers; no text is no operand. -/
def parseOperands (cs : List Char) : Option (List Int) :=
  if (trim cs).isEmpty then some [] else operandValues (splitCommas cs)

/-- The operation a mnemonic and its operands name (R56, R57); unsigned operands must not be negative. -/
def operationOf (name : List Char) (ops : List Int) : Option Instr :=
  if name = ['E', 'D', 'G', 'E'] then
    match ops with
    | [.ofNat t] => some (.edge t)
    | _ => none
  else if name = ['S', 'N', 'A', 'P'] then
    match ops with
    | [] => some .snap
    | _ => none
  else if name = ['C', 'L', 'S'] then
    match ops with
    | [.ofNat v0, .ofNat v1, .ofNat v2, .ofNat v3, .ofNat v4, .ofNat v5] => some (.cls v0 v1 v2 v3 v4 v5)
    | _ => none
  else if name = ['M', 'A', 'P', '.', 'L', 'I', 'N'] then
    match ops with
    | [.ofNat v] => some (.mapLin v)
    | _ => none
  else if name = ['M', 'A', 'P', '.', 'F', 'O', 'L', 'D'] then
    match ops with
    | [.ofNat v] => some (.mapFold v)
    | _ => none
  else if name = ['M', 'A', 'P', '.', 'S', 'G', 'N'] then
    match ops with
    | [.ofNat v] => some (.mapSgn v)
    | _ => none
  else if name = ['M', 'A', 'P', '.', 'H', 'Y', 'S'] then
    match ops with
    | [.ofNat v, p] => some (.mapHys v p)
    | _ => none
  else if name = ['M', 'I', 'X'] then
    match ops with
    | [f, s, r] => some (.mix f s r)
    | _ => none
  else none

/-- The pseudo-operation a name and its operands stand for (R57). -/
def pseudoOf (name : List Char) (ops : List Int) : Option Pseudo :=
  if name = ['M', 'I', 'X', '2'] then
    match ops with
    | [f, s] => some (.mix2 f s)
    | _ => none
  else if name = ['s', 'n', 'a', 'p', 's', 'h', 'o', 't'] then
    match ops with
    | [] => some .snapshot
    | _ => none
  else if name = ['c', 'l', 'a', 's', 's', 'i', 'f', 'y'] then
    match ops with
    | [.ofNat v0, .ofNat v1, .ofNat v2, .ofNat v3, .ofNat v4, .ofNat v5] => some (.classify v0 v1 v2 v3 v4 v5)
    | _ => none
  else if name = ['m', 'a', 'p', '_', 's', 'i', 'g', 'n', 'e', 'd'] then
    match ops with
    | [.ofNat v] => some (.mapSigned v)
    | _ => none
  else if name = ['m', 'a', 'p', '_', 'h', 'y', 's', 't', 'e', 'r', 'e', 's', 'i', 's'] then
    match ops with
    | [.ofNat v, p] => some (.mapHysteresis v p)
    | _ => none
  else if name = ['m', 'i', 'x'] then
    match ops with
    | [f, s, r] => some (.mix f s r)
    | _ => none
  else none

/-- An operation whose operands are in range; 'an assembler refuses an operand outside the stated range' (R56). -/
def checkedLine (i : Instr) : AsmLine := if i.wellFormed then .op i else .refused

/-- A line without its comment and outer blanks; the comment runs from ';' on (R56). -/
def lineText (line : List Char) : List Char := trim (line.takeWhile (· != ';'))

/-- The mnemonic of a line (R56). -/
def lineName (line : List Char) : List Char := (lineText line).takeWhile (!isBlank ·)

/-- The numbers written after the mnemonic, separated by commas (R56); none when one of them is no number. -/
def lineOperands (line : List Char) : Option (List Int) := parseOperands ((lineText line).dropWhile (!isBlank ·))

/-- One line (R56): a mnemonic, operands separated by commas, and a comment from ';' on. -/
def assembleLine (line : List Char) : AsmLine :=
  if (lineText line).isEmpty then .blank
  else match lineOperands line with
    | none => .refused
    | some ops => match operationOf (lineName line) ops, pseudoOf (lineName line) ops with
      | some i, _ => checkedLine i
      | none, some q => checkedLine q.expand
      | none, none => .refused

/-- A program: its lines, in the total order of 20_memory.md R36, as presentations on the port of each operation (R56);
none when a line is refused. -/
def assembleProgram : List (List Char) → Option (List Presentation)
  | [] => some []
  | l :: ls => match assembleLine l, assembleProgram ls with
    | .blank, some ps => some ps
    | .op i, some ps => some (.one (encode i) :: ps)
    | _, _ => none

end Sys2Proof.Machine
end

