-- ==== Sys2Proof/Safety.lean ====
section
/-! DEFINITION. The terms claims are stated in: the invariant of spec 10_state.md R20, the illegal command words of
30_encoding.md R54, sequences of edge events, and the contracts of the boundary devices (60_exceptions.md R103, R104). -/

namespace Sys2Proof.Machine

/-- A channel value a run can leave in a slot: the reset value, or a multiple of 4 below the sync-gap threshold
(10_state.md R20 (c)). -/
def legalWidth (P : Params) (c : U16) : Prop := c = 1500#16 ∨ (c.toNat % 4 = 0 ∧ c.toNat < P.syncGapUs)

/-- U1 within R20 (a) to (d); `idx <= 6` and the six slots are in the types. -/
def Decoder.Legal (P : Params) (d : Decoder) : Prop :=
  d.lt.toNat < P.tickPeriod ∧ ∀ i : Fin 6, legalWidth P (d.ch.get i)

/-- The invariant every step keeps: U1 within R20, and every error response all zero (30_encoding.md R43). -/
def State.Inv (s : State) : Prop :=
  s.u1.Legal Config.params ∧ ∀ r ∈ s.responses, r.err = true → r.data = 0#144

/-- The command words 30_encoding.md R54 calls illegal, read off the word as a number. -/
def illegalWord (w : CmdWord) : Prop :=
  let op := w.toNat / 2 ^ 96
  let arg := w.toNat % 2 ^ 96
  op = 0 ∨ op = 3 ∨ 9 ≤ op ∨ (op = 1 ∧ arg ≠ 0) ∨ ((op = 4 ∨ op = 5 ∨ op = 6) ∧ 2 ^ 16 ≤ arg) ∨
    (op = 7 ∧ 2 ^ 32 ≤ arg) ∨ (op = 8 ∧ 2 ^ 48 ≤ arg)

/-- Presenting `w` on the command port gives the error response of 60_exceptions.md R91 and no other change. -/
def Rejected (w : CmdWord) : Prop :=
  ∀ (s : State) (rest : List Presentation), s.inputs = .one (.command w) :: rest →
    step s = .next { s with inputs := rest, responses := s.responses ++ [⟨true, 0#144⟩] }

/-- Edge events presented one after another. -/
def edgePresentations (ticks : List EdgeWord) : List Presentation := ticks.map fun t => .one (.edge t)

/-- The elapsed times, in microseconds, that a sequence of edge events measures after a first edge at tick `lt`
(40_decoder.md R58, R59). -/
def edgeWidths (P : Params) (lt : Nat) : List Nat → List Nat
  | [] => []
  | t :: ts => elapsedUs P (t % P.tickPeriod) lt :: edgeWidths P (t % P.tickPeriod) ts

/-- None of the elapsed times is a sync gap (40_decoder.md R59). -/
def AllPulses (P : Params) (widths : List Nat) : Prop := ∀ el ∈ widths, el < P.syncGapUs

/-- The ticks of edges that follow tick `t` at the given distances. -/
def ticksAfter (t : Nat) : List Nat → List Nat
  | [] => []
  | dt :: dts => (t + dt) :: ticksAfter (t + dt) dts

/-- The signal contract of one frame (60_exceptions.md R103), in ticks of 4 microseconds: up to six pulses of 1000 to
2000 microseconds. The synchronizing gap that opens the frame is stated where this is used. -/
def ConformingPulses (dts : List Nat) : Prop := dts.length ≤ 6 ∧ ∀ dt ∈ dts, 250 ≤ dt ∧ dt ≤ 500

/-- The operands of an operation as the integers a line of assembler text writes them, in order (30_encoding.md R56). -/
def operandsOf : Instr → List Int
  | .edge t => [(t : Int)]
  | .snap => []
  | .cls v0 v1 v2 v3 v4 v5 => [(v0 : Int), v1, v2, v3, v4, v5]
  | .mapLin v => [(v : Int)]
  | .mapFold v => [(v : Int)]
  | .mapSgn v => [(v : Int)]
  | .mapHys v p => [(v : Int), p]
  | .mix f s r => [f, s, r]

/-- What a motor does with a wheel command (60_exceptions.md R104). -/
inductive Drive where
  | forward (duty : Nat)
  | backward (duty : Nat)
  | stop
deriving DecidableEq, Repr

/-- The MotorActuator contract: the sign is the direction, the magnitude the duty (60_exceptions.md R104). -/
def driveOf (x : Int) : Drive :=
  if 0 < x then .forward x.natAbs else if x < 0 then .backward x.natAbs else .stop

end Sys2Proof.Machine
end

