-- ==== Sys2Proof/Certificates/Slice0/Obligations.lean ====
section
/-! DEFINITION. The statements for the provers. Each docstring cites the rule or section of spec/ it formalises. Where a
statement names `Config.params` it holds for every legal pair of parameters, the constant having no body (log entry 4). -/

open Sys2Proof Sys2Proof.Machine

/-- 10_state.md R25, R26, R27: what reset leaves in U1. -/
def Obligations.ResetStateValues : Prop :=
  (∀ i : Fin 6, State.reset.u1.ch.get i = 1500#16) ∧ State.reset.u1.idx.val = 6 ∧ State.reset.u1.lt.toNat = 0

/-- 70_reset_and_hazards.md section 1: the reset input puts U1 into the values of R25 to R27. That it leaves earlier
responses and later presentations alone is the model's choice (log entries 1, 2 and 8). -/
def Obligations.ResetInputRestoresU1 : Prop :=
  ∀ (s : State) (rest : List Presentation), s.inputs = .reset :: rest →
    ∃ t, step s = .next t ∧ (∀ i : Fin 6, t.u1.ch.get i = 1500#16) ∧ t.u1.idx.val = 6 ∧ t.u1.lt.toNat = 0 ∧
      t.inputs = rest ∧ t.responses = s.responses ∧ t.arbs = s.arbs

/-- 40_decoder.md R58: the whole effect of an edge event, for every tick and state, and what it leaves unchanged. -/
def Obligations.EdgeEventEffect : Prop :=
  ∀ (tick : Nat) (s : State),
    let P := Config.params
    let cur : Nat := tick % P.tickPeriod
    let el : Int := (((cur : Int) - (s.u1.lt.toNat : Int)) % (P.tickPeriod : Int)) * 4
    ∃ t, exec (.edge tick) s = .next t ∧ t.inputs = s.inputs ∧ t.responses = s.responses ∧ t.arbs = s.arbs ∧
      t.u1.lt.toNat = cur ∧
      if el < (P.syncGapUs : Int) then
        (∀ h : s.u1.idx.val < 6, t.u1.idx.val = s.u1.idx.val + 1 ∧
          ((t.u1.ch.get ⟨s.u1.idx.val, h⟩).toNat : Int) = el ∧
          ∀ j : Fin 6, j.val ≠ s.u1.idx.val → t.u1.ch.get j = s.u1.ch.get j) ∧
        (s.u1.idx.val = 6 → t.u1.ch = s.u1.ch ∧ t.u1.idx.val = 6)
      else t.u1.ch = s.u1.ch ∧ t.u1.idx.val = 0

/-- 40_decoder.md R59 (its range and its unit), for ticks the counter can show: the true distance, once around the
counter at most. -/
def Obligations.ElapsedTimeInMicroseconds : Prop :=
  ∀ (P : Params) (cur lt : Nat), cur < P.tickPeriod → lt < P.tickPeriod →
    elapsedUs P cur lt % 4 = 0 ∧ elapsedUs P cur lt ≤ 4 * (P.tickPeriod - 1) ∧
    (lt ≤ cur → elapsedUs P cur lt = 4 * (cur - lt)) ∧
    (cur < lt → elapsedUs P cur lt = 4 * (cur + P.tickPeriod - lt))

/-- 40_decoder.md section 1, the sentence marked derived: a stored value always fits its 16-bit slot without loss, and is
at most 65532; for every legal pair of parameters. -/
def Obligations.StoredWidthFits : Prop :=
  ∀ (P : Params) (tick : Nat) (d : Decoder) (h : d.idx.val < 6),
    elapsedUs P (tick % P.tickPeriod) d.lt.toNat < P.syncGapUs →
    ((d.edgeEvent P tick).ch.get ⟨d.idx.val, h⟩).toNat = elapsedUs P (tick % P.tickPeriod) d.lt.toNat ∧
    ((d.edgeEvent P tick).ch.get ⟨d.idx.val, h⟩).toNat ≤ 65532

/-- 40_decoder.md section 1, the sentence marked derived (resynchronisation): from any state, one sync gap and then `n`
pulses leave `idx = min(n, 6)` and the first pulse widths in order; the other slots keep what they held. -/
def Obligations.Resynchronisation : Prop :=
  ∀ (s : State) (gap : EdgeWord) (ticks : List EdgeWord) (rest : List Presentation),
    let P := Config.params
    let start := gap.toNat % P.tickPeriod
    let widths := edgeWidths P start (ticks.map BitVec.toNat)
    s.inputs = edgePresentations (gap :: ticks) ++ rest →
    P.syncGapUs ≤ elapsedUs P start s.u1.lt.toNat →
    AllPulses P widths →
    ∃ t, Host.Core.run Sys2Proof.core (ticks.length + 1) s = .next t ∧ t.inputs = rest ∧
      t.responses = s.responses ∧ t.u1.idx.val = min ticks.length 6 ∧
      ∀ i : Fin 6,
        if i.val < ticks.length then widths[i.val]? = some (t.u1.ch.get i).toNat
        else t.u1.ch.get i = s.u1.ch.get i

/-- 70_reset_and_hazards.md section 2, the sentence marked derived (acquisition): while `idx = 6` every pulse is dropped;
reset leaves `idx = 6`. -/
def Obligations.PulsesDroppedWhileAwaitingSync : Prop :=
  ∀ (s : State) (ticks : List EdgeWord) (rest : List Presentation),
    s.inputs = edgePresentations ticks ++ rest → s.u1.idx.val = 6 →
    AllPulses Config.params (edgeWidths Config.params s.u1.lt.toNat (ticks.map BitVec.toNat)) →
    ∃ t, Host.Core.run Sys2Proof.core ticks.length s = .next t ∧ t.u1.ch = s.u1.ch ∧ t.u1.idx.val = 6 ∧
      t.inputs = rest ∧ t.responses = s.responses

/-- 60_exceptions.md R103 with 70_reset_and_hazards.md section 3 (misclassified intervals, marked derived): for every
legal pair of parameters with a threshold above 2000, a sync gap and a conforming frame leave every pulse's width in its
own slot. -/
def Obligations.ConformingFrameDecoded : Prop :=
  ∀ (P : Params) (d : Decoder) (gap : Nat) (dts : List Nat),
    2000 < P.syncGapUs → ConformingPulses dts →
    P.syncGapUs ≤ elapsedUs P (gap % P.tickPeriod) d.lt.toNat →
    let d' := (gap :: ticksAfter gap dts).foldl (fun d t => d.edgeEvent P t) d
    d'.idx.val = dts.length ∧
    ∀ i : Fin 6,
      if h : i.val < dts.length then (d'.ch.get i).toNat = 4 * dts[i.val] else d'.ch.get i = d.ch.get i

/-- 70_reset_and_hazards.md section 3, tick aliasing (marked derived): EDGE sees time only modulo `TICK_PERIOD`, so whole
periods of silence are invisible. -/
def Obligations.TickAliasing : Prop :=
  ∀ (tick k : Nat) (s : State),
    exec (.edge (tick + k * Config.params.tickPeriod)) s = exec (.edge tick) s

/-- 70_reset_and_hazards.md section 3, the first edge event after reset (marked derived): it measures from tick 0. -/
def Obligations.FirstEdgeMeasuresFromZero : Prop :=
  ∀ (P : Params) (tick : Nat),
    let d := State.reset.u1.edgeEvent P tick
    d.ch = State.reset.u1.ch ∧ d.lt.toNat = tick % P.tickPeriod ∧
    d.idx.val = if P.syncGapUs ≤ 4 * (tick % P.tickPeriod) then 0 else 6

/-- 40_decoder.md R63 with the layout of 30_encoding.md R51: SNAP returns the six channel values and writes no state; it
raises IllegalCmd when any bit of `arg` is 1. -/
def Obligations.SnapAnswersChannelTable : Prop :=
  (∀ s : State, ∃ data : RspWord,
    exec .snap s = .next { s with responses := s.responses ++ [⟨false, data⟩] } ∧
    (∀ i : Fin 6, data.extractLsb' (16 * i.val) 16 = s.u1.ch.get i) ∧ data.extractLsb' 96 48 = 0#48) ∧
  ∀ w : CmdWord, w.extractLsb' 96 4 = 0x1#4 → w.extractLsb' 0 96 ≠ 0#96 → Rejected w

/-- 41_classifier.md R66 to R70 with the layout of 30_encoding.md R52: clamp, compare strictly, and place the tag and the
clamped width in the channel's slot; the two slots no channel feeds hold Centered(1500). -/
def Obligations.ClsAnswersBuckets : Prop :=
  ∀ (v : Fin 6 → Nat) (s : State), ∃ data : RspWord,
    exec (.cls (v 0) (v 1) (v 2) (v 3) (v 4) (v 5)) s =
      .next { s with responses := s.responses ++ [⟨false, data⟩] } ∧
    (∀ ck ∈ ([(0, 1), (1, 0), (2, 2), (3, 3), (4, 5), (5, 7)] : List (Fin 6 × Nat)),
      let w := min (max (v ck.1) 1000) 2000
      let hi := if ck.1 = 2 then 1500 else 1550
      let lo := if ck.1 = 2 then 1500 else 1450
      (data.extractLsb' (18 * ck.2) 16).toNat = w ∧
      data.extractLsb' (18 * ck.2 + 16) 2 = if w > hi then 2#2 else if w < lo then 1#2 else 0#2) ∧
    ∀ k ∈ ([4, 6] : List Nat), data.extractLsb' (18 * k) 18 = 1500#18

/-- 42_mapper.md R75: MAP.LIN, its quotient given by the two inequalities of a floor. -/
def Obligations.MapLinResult : Prop :=
  (∀ (v : Nat) (s : State), ∃ data : RspWord,
    exec (.mapLin v) s = .next { s with responses := s.responses ++ [⟨false, data⟩] } ∧
    data.toNat * 1000 ≤ (min (max v 1000) 2000 - 1000) * 255 ∧
    (min (max v 1000) 2000 - 1000) * 255 < (data.toNat + 1) * 1000) ∧
  ∀ w : CmdWord, w.extractLsb' 96 4 = 0x4#4 → w.extractLsb' 16 80 ≠ 0#80 → Rejected w

/-- 42_mapper.md R76: MAP.FOLD, the distance from 1500 scaled by 255/500 and floored. -/
def Obligations.MapFoldResult : Prop :=
  (∀ (v : Nat) (s : State), ∃ data : RspWord,
    exec (.mapFold v) s = .next { s with responses := s.responses ++ [⟨false, data⟩] } ∧
    data.toNat * 500 ≤ (((min (max v 1000) 2000 : Nat) : Int) - 1500).natAbs * 255 ∧
    (((min (max v 1000) 2000 : Nat) : Int) - 1500).natAbs * 255 < (data.toNat + 1) * 500) ∧
  ∀ w : CmdWord, w.extractLsb' 96 4 = 0x5#4 → w.extractLsb' 16 80 ≠ 0#80 → Rejected w

/-- 42_mapper.md R77: MAP.SGN, zero in the dead zone, the magnitude outside it rounded toward zero. -/
def Obligations.MapSgnResult : Prop :=
  (∀ (v : Nat) (s : State), ∃ data : RspWord,
    let c : Int := ((min (max v 1000) 2000 : Nat) : Int)
    let y : Int := (data.extractLsb' 0 16).toInt
    exec (.mapSgn v) s = .next { s with responses := s.responses ++ [⟨false, data⟩] } ∧
    data.extractLsb' 16 128 = 0#128 ∧
    (1550 < c → y * 450 ≤ (c - 1550) * 255 ∧ (c - 1550) * 255 < (y + 1) * 450) ∧
    (c < 1450 → -y * 450 ≤ (1450 - c) * 255 ∧ (1450 - c) * 255 < (-y + 1) * 450) ∧
    (1450 ≤ c ∧ c ≤ 1550 → y = 0)) ∧
  ∀ w : CmdWord, w.extractLsb' 96 4 = 0x6#4 → w.extractLsb' 16 80 ≠ 0#80 → Rejected w

/-- 42_mapper.md R79: MAP.HYS keeps the previous output while the folded magnitude is within 2 of it. -/
def Obligations.MapHysResult : Prop :=
  (∀ (v : Nat) (p : Int) (s : State), -32768 ≤ p → p ≤ 32767 → ∃ data : RspWord,
    let m : Int := (((min (max v 1000) 2000 : Nat) : Int) - 1500).natAbs * 255 / 500
    exec (.mapHys v p) s = .next { s with responses := s.responses ++ [⟨false, data⟩] } ∧
    data.extractLsb' 16 128 = 0#128 ∧
    (data.extractLsb' 0 16).toInt = if (m - p).natAbs ≤ 2 then p else m) ∧
  ∀ w : CmdWord, w.extractLsb' 96 4 = 0x7#4 → w.extractLsb' 32 64 ≠ 0#64 → Rejected w

/-- 42_mapper.md R73: every mapping operation gives for a width below 1000 what it gives for 1000, and for a width above
2000 what it gives for 2000. -/
def Obligations.MappersClampTheirOperand : Prop :=
  ∀ (p : Int) (s : State) (op : Nat → Instr),
    op = .mapLin ∨ op = .mapFold ∨ op = .mapSgn ∨ (op = fun v => .mapHys v p) →
    (∀ v ≤ 1000, exec (op v) s = exec (op 1000) s) ∧ ∀ v ≥ 2000, exec (op v) s = exec (op 2000) s

/-- 42_mapper.md section 2, the consequences marked derived: where the signed mapper is zero, its first non-zero values,
its oddness about the centre and its monotonicity. -/
def Obligations.SignedMapperShape : Prop :=
  (∀ v, sgnMagnitude v = 0 ↔ 1449 ≤ v ∧ v ≤ 1551) ∧ sgnMagnitude 1552 = 1 ∧ sgnMagnitude 1448 = -1 ∧
  (∀ k ≤ 500, sgnMagnitude (1500 - k) = -sgnMagnitude (1500 + k)) ∧
  ∀ v w, v ≤ w → sgnMagnitude v ≤ sgnMagnitude w

/-- 42_mapper.md sections 2 and 3, the ranges marked derived and the corner cases of the two unsigned strategies. -/
def Obligations.MapperRangesAndShapes : Prop :=
  (∀ v, linMagnitude v ≤ 255 ∧ foldMagnitude v ≤ 255 ∧ -255 ≤ sgnMagnitude v ∧ sgnMagnitude v ≤ 255) ∧
  (∀ v w, v ≤ w → linMagnitude v ≤ linMagnitude w) ∧
  (∀ k ≤ 500, foldMagnitude (1500 - k) = foldMagnitude (1500 + k)) ∧
  ∀ v p, hysMagnitude v p = p ∨ hysMagnitude v p = foldMagnitude v

/-- 42_mapper.md section 3: with each result fed back as the next previous output, the output moves only in steps of 3 or
more, and sits still while the folded magnitude stays within 2 of it. -/
def Obligations.HysteresisMovesByThree : Prop :=
  ∀ (v : Nat) (p : Int),
    (hysMagnitude v p ≠ p → 3 ≤ (hysMagnitude v p - p).natAbs) ∧
    (((foldMagnitude v : Int) - p).natAbs ≤ 2 → hysMagnitude v p = p) ∧
    hysMagnitude v (hysMagnitude v p) = hysMagnitude v p

/-- 43_mixer.md R83, R84, R85, R86 with the layout of 30_encoding.md R53: the four sums, scaled together exactly and
rounded toward zero when the largest exceeds 255. -/
def Obligations.MixResult : Prop :=
  (∀ (f s r : Int) (σ : State), ∃ data : RspWord,
    let m : Nat := max (max (f + s + r).natAbs (f - s - r).natAbs) (max (f - s + r).natAbs (f + s - r).natAbs)
    exec (.mix f s r) σ = .next { σ with responses := σ.responses ++ [⟨false, data⟩] } ∧
    data.extractLsb' 64 80 = 0#80 ∧
    ∀ kx ∈ ([(0, f + s + r), (1, f - s - r), (2, f - s + r), (3, f + s - r)] : List (Nat × Int)),
      (data.extractLsb' (16 * kx.1) 16).toInt = if m > 255 then Int.tdiv (kx.2 * 255) m else kx.2) ∧
  ∀ w : CmdWord, w.extractLsb' 96 4 = 0x8#4 → w.extractLsb' 48 48 ≠ 0#48 → Rejected w

/-- 43_mixer.md section 3, the guarantees (a) to (f) marked derived, for every three operands: range, the largest wheel,
sign, order, equal and opposite sums, and the rounding of each output. -/
def Obligations.MixGuarantees : Prop :=
  ∀ (f s r : Int) (j k : Fin 4),
    let x := mixSums f s r
    let y := normalise x
    (-255 ≤ y.get k ∧ y.get k ≤ 255) ∧
    (x.peak > 255 → y.peak = 255 ∧ ((x.get k).natAbs = x.peak → (y.get k).natAbs = 255)) ∧
    (0 ≤ x.get k → 0 ≤ y.get k) ∧ (x.get k ≤ 0 → y.get k ≤ 0) ∧
    ((x.get k).natAbs * 255 < x.peak → y.get k = 0) ∧
    (x.get j ≤ x.get k → y.get j ≤ y.get k) ∧
    (x.get j = -x.get k → y.get j = -y.get k) ∧
    (x.peak > 255 → (y.get k).natAbs * x.peak ≤ (x.get k).natAbs * 255 ∧
      (x.get k).natAbs * 255 < ((y.get k).natAbs + 1) * x.peak)

/-- 43_mixer.md section 3: with `r = 0` the result always has `a = d` and `b = c`; on the response port's word. -/
def Obligations.MixWithoutRotation : Prop :=
  ∀ (f s : Int) (σ : State), ∃ data : RspWord,
    exec (.mix f s 0) σ = .next { σ with responses := σ.responses ++ [⟨false, data⟩] } ∧
    data.extractLsb' 0 16 = data.extractLsb' 48 16 ∧ data.extractLsb' 16 16 = data.extractLsb' 32 16

/-- 60_exceptions.md section 5, the actuator's contract on the results of MIX (their range is marked derived in
43_mixer.md section 3): the sign is the direction, the magnitude, at most 255, the duty, and zero stops. -/
def Obligations.WheelCommandsDriveMotors : Prop :=
  ∀ (f s r : Int) (k : Fin 4),
    let y := (normalise (mixSums f s r)).get k
    match driveOf y with
    | .forward n => y = n ∧ 1 ≤ n ∧ n ≤ 255
    | .backward n => y = -(n : Int) ∧ 1 ≤ n ∧ n ≤ 255
    | .stop => y = 0

/-- 43_mixer.md section 3, the widths marked derived: no intermediate of MIX leaves the given ranges. -/
def Obligations.MixWidths : Prop :=
  ∀ (f s r : Int) (k : Fin 4),
    ((∀ x ∈ [f, s, r], -32768 ≤ x ∧ x ≤ 32767) →
      -98304 ≤ (mixSums f s r).get k ∧ (mixSums f s r).get k ≤ 98303 ∧ (mixSums f s r).peak ≤ 98304 ∧
      ((mixSums f s r).get k).natAbs * 255 ≤ 25067520) ∧
    ((∀ x ∈ [f, s, r], -255 ≤ x ∧ x ≤ 255) →
      -765 ≤ (mixSums f s r).get k ∧ (mixSums f s r).get k ≤ 765 ∧ ((mixSums f s r).get k).natAbs * 255 ≤ 195075)

/-- 30_encoding.md R54 and 60_exceptions.md R91: an illegal command word gives the error response and changes no state;
every other word decodes to one of the seven command operations; on the edge port every word is legal. -/
def Obligations.IllegalWordsRejected : Prop :=
  (∀ w : CmdWord, illegalWord w → Rejected w) ∧
  (∀ w : CmdWord, ¬ illegalWord w → ∃ i, decode (.command w) = .ok i ∧ ∀ tick, i ≠ .edge tick) ∧
  ∀ w : EdgeWord, ∃ tick, decode (.edge w) = .ok (.edge tick)

/-- 60_exceptions.md section 1: no operation raises an exception, traps, aborts or reports an error for any operand value:
each one answers a next state, from every state, and presents at most one response, never an error. That it takes nothing
more from the list of presentations, and that responses are kept in a list, are the model's form of the ports (log
entries 1, 2 and 3). -/
def Obligations.OperationsAlwaysComplete : Prop :=
  ∀ (i : Instr) (s : State), ∃ t, exec i s = .next t ∧ t.inputs = s.inputs ∧ t.arbs = s.arbs ∧
    (t.responses = s.responses ∨ ∃ r : Response, r.err = false ∧ t.responses = s.responses ++ [r])

/-- 20_memory.md section 3 and 30_encoding.md section 1: one step executes the operation that the next word on a port
decodes to; the word leaves the port. -/
def Obligations.StepRunsDecodedOperation : Prop :=
  ∀ (s : State) (p : PortWord) (rest : List Presentation) (i : Instr),
    s.inputs = .one p :: rest → decode p = .ok i → step s = exec i { s with inputs := rest }

/-- 60_exceptions.md section 3: of an edge event and a command presented together either may be ordered first; the step
does what it does for one of the two orders. The counter `arbs` is the model's own (log entry 3). -/
def Obligations.SimultaneousEitherOrder : Prop :=
  ∀ (s : State) (tick : EdgeWord) (cmd : CmdWord) (rest : List Presentation),
    s.inputs = .both tick cmd :: rest →
    step s = step { s with inputs := .one (.edge tick) :: .one (.command cmd) :: rest, arbs := s.arbs + 1 } ∨
    step s = step { s with inputs := .one (.command cmd) :: .one (.edge tick) :: rest, arbs := s.arbs + 1 }

/-- 60_exceptions.md section 3: the only command whose result depends on the order is SNAP, and then only in the one slot that
the EDGE writes. The two orders are the two ways to list the presentations (log entry 1). -/
def Obligations.OrderMattersOnlyToSnap : Prop :=
  ∀ (s : State) (tick : EdgeWord) (cmd : CmdWord) (rest : List Presentation),
    ∃ (t t' : State) (r r' : Response),
      Host.Core.run Sys2Proof.core 2
        { s with inputs := .one (.edge tick) :: .one (.command cmd) :: rest } = .next t ∧
      Host.Core.run Sys2Proof.core 2
        { s with inputs := .one (.command cmd) :: .one (.edge tick) :: rest } = .next t' ∧
      t.u1 = t'.u1 ∧ t.inputs = rest ∧ t'.inputs = rest ∧
      t.responses = s.responses ++ [r] ∧ t'.responses = s.responses ++ [r'] ∧ r.err = r'.err ∧
      (decode (.command cmd) ≠ .ok .snap → r = r') ∧
      ∀ j : Fin 6, j.val ≠ s.u1.idx.val → r.data.extractLsb' (16 * j.val) 16 = r'.data.extractLsb' (16 * j.val) 16

/-- 10_state.md section 2 and 70_reset_and_hazards.md section 1: only an edge event and the reset input write U1. -/
def Obligations.OnlyEdgeAndResetWriteU1 : Prop :=
  ∀ s t : State, step s = .next t → t.u1 ≠ s.u1 →
    ∃ rest, s.inputs = .reset :: rest ∨ (∃ tick, s.inputs = .one (.edge tick) :: rest) ∨
      ∃ tick cmd, s.inputs = .both tick cmd :: rest

/-- 30_encoding.md section 1 and 2: exactly one response per command, with `rsp_err = 1` and `rsp = 0` exactly when the
word is illegal, and none for an edge event; a command changes nothing else. -/
def Obligations.OneResponsePerCommand : Prop :=
  (∀ (s : State) (cmd : CmdWord) (rest : List Presentation), s.inputs = .one (.command cmd) :: rest →
    ∃ r : Response, step s = .next { s with inputs := rest, responses := s.responses ++ [r] } ∧
      (r.err = true ↔ illegalWord cmd) ∧ (r.err = true → r.data = 0#144)) ∧
  ∀ (s : State) (tick : EdgeWord) (rest : List Presentation), s.inputs = .one (.edge tick) :: rest →
    ∃ t, step s = .next t ∧ t.inputs = rest ∧ t.responses = s.responses

/-- 40_decoder.md section 2: no later operation changes a response already presented (the frame a SNAP returned is a
value), and no run stops (70_reset_and_hazards.md section 4). The list of responses is the model's form of the response
port (log entry 2). -/
def Obligations.ResponsesAreNeverChanged : Prop :=
  ∀ (n : Nat) (s : State), ∃ t, Host.Core.run Sys2Proof.core n s = .next t ∧ s.responses <+: t.responses

/-- 10_state.md section 2 and 20_memory.md section 3: a command's response never depends on `idx` or `lt`, and on the
channel table only for SNAP; no command writes U1. -/
def Obligations.CommandsSeeOnlyTheChannels : Prop :=
  ∀ (i : Instr) (s s' : State), (∀ tick, i ≠ .edge tick) → (i = .snap → s.u1.ch = s'.u1.ch) →
    ∃ r : Response, exec i s = .next { s with responses := s.responses ++ [r] } ∧
      exec i s' = .next { s' with responses := s'.responses ++ [r] }

/-- 10_state.md section 2, the invariants marked derived, with the zero `rsp` of an error response (30_encoding.md R43):
every step keeps them, from every state that has them. -/
def Obligations.StepKeepsInvariant : Prop :=
  ∀ s t : State, s.Inv → step s = .next t → t.Inv

/-- 10_state.md section 2, the invariants marked derived: reset has them, for every legal pair of parameters. -/
def Obligations.ResetMeetsInvariant : Prop := State.reset.Inv ∧ ∀ P : Params, State.reset.u1.Legal P

/-- 10_state.md section 2, the second half of invariant (c), marked derived: every channel value is a multiple of 4 and at
most 65532. -/
def Obligations.InvariantBoundsWidths : Prop :=
  ∀ (P : Params) (d : Decoder) (i : Fin 6), d.Legal P → (d.ch.get i).toNat % 4 = 0 ∧ (d.ch.get i).toNat ≤ 65532

/-- 30_encoding.md sections 2 to 4: decoding the word of a well-formed operation gives it back, every operand at every
value its field admits. -/
def Obligations.DecodeOfEncode : Prop := ∀ i : Instr, i.WellFormed → decode (encode i) = .ok i

/-- 30_encoding.md sections 2 to 5: no two words decode to the same operation, and what is decoded is well-formed:
encoding it gives the word back. -/
def Obligations.EncodeOfDecode : Prop :=
  ∀ (p : PortWord) (i : Instr), decode p = .ok i → i.WellFormed ∧ encode i = p

/-- opcode_table.json: a command word matches at most one row, it is legal exactly when it matches one, and the row's
mnemonic is that of the decoded operation. -/
def Obligations.TableRowsAgreeWithDecoder : Prop :=
  (∀ w : CmdWord, ∀ a ∈ commandRows, ∀ b ∈ commandRows, w &&& a.mask = a.pattern → w &&& b.mask = b.pattern → a = b) ∧
  (∀ (w : CmdWord) (i : Instr), decode (.command w) = .ok i →
    ∃ a ∈ commandRows, w &&& a.mask = a.pattern ∧ a.mnemonic = i.mnemonic) ∧
  ∀ (w : CmdWord), ∀ a ∈ commandRows, w &&& a.mask = a.pattern →
    ∃ i, decode (.command w) = .ok i ∧ i.mnemonic = a.mnemonic

/-- 95_test_vectors.md: words written out in the spec decode to the operations they stand for, and its illegal words do
not decode. -/
def Obligations.SpecWordsDecode : Prop :=
  decode (.edge 0x0000055F#32) = .ok (.edge 1375) ∧
  decode (.command 0x1000000000000000000000000#100) = .ok .snap ∧
  decode (.command 0x208340384060E05DC05A9060F#100) = .ok (.cls 1551 1449 1500 1550 900 2100) ∧
  decode (.command 0x40000000000000000000004E2#100) = .ok (.mapLin 1250) ∧
  decode (.command 0x70000000000000000FFFE05DC#100) = .ok (.mapHys 1500 (-2)) ∧
  decode (.command 0x800000000000000000064FED4#100) = .ok (.mix (-300) 100 0) ∧
  decode (.command 0x3000000000000000000001234#100) = .illegal (.unassignedOp 0x3#4) ∧
  decode (.command 0x7000000000000000100320640#100) = .illegal (.reservedBits 0x7#4)

/-- 30_encoding.md section 6: 'an assembler refuses an operand outside the stated range'. A line that names an operation,
or a pseudo-operation that expands to one, with an operand out of range is refused; what a line assembles to carries
exactly the numbers written (and a rotate of 0 for MIX2), each in range, so its port word decodes back to it. The blanks,
signs and digits of the text are the model's choice (log entry 12). -/
def Obligations.AssemblerRefusesOutOfRange : Prop :=
  (∀ (line : List Char) (ops : List Int) (i : Instr), lineOperands line = some ops →
    (operationOf (lineName line) ops = some i ∨ ∃ q : Pseudo, pseudoOf (lineName line) ops = some q ∧ q.expand = i) →
    ¬ i.WellFormed → assembleLine line = .refused) ∧
  ∀ (line : List Char) (i : Instr), assembleLine line = .op i →
    i.WellFormed ∧ decode (encode i) = .ok i ∧
    ∃ ops, lineOperands line = some ops ∧
      operandsOf i = if lineName line = ['M', 'I', 'X', '2'] then ops ++ [0] else ops

/-- 70_reset_and_hazards.md section 1: no response is presented before the first command; on sequences of presentations
without one, each of which leaves the list in its turn. That responses are kept in a list which a reset leaves alone (log
entry 2), that presentations stand in a list (log entry 1) of which a reset takes one step (log entry 8), and that a step
past the list's end changes nothing (log entry 7) are the model's choices. -/
def Obligations.NoResponseBeforeCommand : Prop :=
  ∀ (n : Nat) (s : State), (∀ x ∈ s.inputs, x = .reset ∨ ∃ tick, x = .one (.edge tick)) →
    ∃ t, Host.Core.run Sys2Proof.core n s = .next t ∧ t.responses = s.responses ∧ t.inputs = s.inputs.drop n
end

