-- ==== Sys2Proof/Laws/Assembler.lean ====
section
/-! SUPPORT. What the functions of the assembler can answer (spec 30_encoding.md R56, R57). -/

namespace Sys2Proof.Machine

/-- What the range check lets through is well-formed and unchanged. -/
theorem checkedLine_op {j i : Instr} (h : checkedLine j = .op i) : j = i ∧ i.WellFormed := by
  by_cases hw : j.wellFormed = true
  · simp [checkedLine, hw] at h; subst h; exact ⟨rfl, hw⟩
  · simp [checkedLine, hw] at h

/-- An operand out of range is refused. -/
theorem checkedLine_refused {i : Instr} (h : ¬ i.WellFormed) : checkedLine i = .refused := by
  simp [checkedLine, h]

/-- A mnemonic's operation carries exactly the numbers given to it. -/
theorem operationOf_operands {name : List Char} {ops : List Int} {i : Instr} (h : operationOf name ops = some i) :
    operandsOf i = ops ∧ name ≠ ['M', 'I', 'X', '2'] := by
  unfold operationOf at h
  repeat' split at h
  all_goals cases h
  all_goals (subst_vars; exact ⟨rfl, by decide⟩)

/-- A pseudo-operation expands to the numbers given to it, MIX2 with a rotate of 0; its name is no mnemonic. -/
theorem pseudoOf_operands {name : List Char} {ops : List Int} {q : Pseudo} (h : pseudoOf name ops = some q) :
    operandsOf q.expand = (if name = ['M', 'I', 'X', '2'] then ops ++ [0] else ops) ∧ operationOf name ops = none := by
  unfold pseudoOf at h
  repeat' split at h
  all_goals cases h
  all_goals (subst_vars; exact ⟨rfl, by simp [operationOf]⟩)

end Sys2Proof.Machine
end

