-- ==== Sys2Proof/Laws/Operands.lean ====
section
/-! SUPPORT. The laws of the bit and integer primitives (spec 00_scope.md R12, R14) and of packing (20_memory.md R30). -/

namespace Sys2Proof.Machine

theorem pack_lt (w : Nat) (xs : List (BitVec w)) : pack w xs < 2 ^ (w * xs.length) := by
  induction xs with
  | nil => simp [pack]
  | cons x xs ih =>
    have hx := x.isLt
    have h : 2 ^ (w * (xs.length + 1)) = 2 ^ w * 2 ^ (w * xs.length) := by ring
    have h2 : 2 ^ w * (pack w xs + 1) ≤ 2 ^ w * 2 ^ (w * xs.length) := Nat.mul_le_mul_left _ ih
    simp only [pack, List.length_cons, h]
    rw [Nat.mul_add] at h2
    omega

/-- Element `k` of a packed word is its slice `[w*k + w - 1 : w*k]` (R30); past the last element the slice is 0. -/
theorem pack_slice (w : Nat) (xs : List (BitVec w)) (k : Nat) :
    pack w xs / 2 ^ (w * k) % 2 ^ w = (xs[k]?.getD 0#w).toNat := by
  induction xs generalizing k with
  | nil => simp [pack]
  | cons x xs ih =>
    have hx := x.isLt
    cases k with
    | zero => simp [pack, Nat.mod_eq_of_lt hx]
    | succ k =>
      have h : 2 ^ (w * (k + 1)) = 2 ^ w * 2 ^ (w * k) := by ring
      rw [pack, h, ← Nat.div_div_eq_div_mul, Nat.add_mul_div_left _ _ (Nat.two_pow_pos w),
        Nat.div_eq_of_lt hx, Nat.zero_add, ih]
      simp

/-- A slice of the word that holds a packed list is the element there. -/
theorem ofNat_pack_slice (n w : Nat) (xs : List (BitVec w)) (k : Nat) (hn : w * xs.length ≤ n) :
    (BitVec.ofNat n (pack w xs)).extractLsb' (w * k) w = xs[k]?.getD 0#w := by
  apply BitVec.eq_of_toNat_eq
  have hlt : pack w xs < 2 ^ n := lt_of_lt_of_le (pack_lt w xs) (Nat.pow_le_pow_right (by decide) hn)
  rw [BitVec.extractLsb'_toNat, BitVec.toNat_ofNat, Nat.mod_eq_of_lt hlt, Nat.shiftRight_eq_div_pow, pack_slice]

/-- The bits above a packed list are 0. -/
theorem ofNat_pack_above (n w lo len : Nat) (xs : List (BitVec w)) (hn : w * xs.length ≤ n) (hlo : w * xs.length ≤ lo) :
    (BitVec.ofNat n (pack w xs)).extractLsb' lo len = 0#len := by
  apply BitVec.eq_of_toNat_eq
  have h1 : pack w xs < 2 ^ n := lt_of_lt_of_le (pack_lt w xs) (Nat.pow_le_pow_right (by decide) hn)
  have h2 : pack w xs < 2 ^ lo := lt_of_lt_of_le (pack_lt w xs) (Nat.pow_le_pow_right (by decide) hlo)
  simp [BitVec.extractLsb'_toNat, Nat.mod_eq_of_lt h1, Nat.shiftRight_eq_div_pow, Nat.div_eq_of_lt h2]

theorem u16_toNat {x : Nat} (h : x < 65536) : (u16 x).toNat = x := by
  simp [u16, BitVec.toNat_ofNat, Nat.mod_eq_of_lt h]

/-- The model's two's complement reading (R12) is the library's. -/
theorem s16_eq_toInt (w : U16) : s16 w = w.toInt := by
  unfold s16
  rw [BitVec.toInt_eq_toNat_cond]
  split <;> split <;> omega

theorem s16_i16 {x : Int} (h1 : -32768 ≤ x) (h2 : x ≤ 32767) : s16 (i16 x) = x := by
  rw [s16_eq_toInt, i16, BitVec.toInt_ofInt]
  simp only [Int.bmod]
  omega

theorem i16_s16 (w : U16) : i16 (s16 w) = w := by
  rw [s16_eq_toInt, i16, BitVec.ofInt_toInt]

theorem s16_bounds (w : U16) : -32768 ≤ s16 w ∧ s16 w ≤ 32767 := by
  have := w.isLt
  unfold s16
  split <;> omega

theorem clamp_bounds (v : Nat) : 1000 ≤ clamp v ∧ clamp v ≤ 2000 := by
  simp only [clamp, pwMin, pwMax]; omega

theorem clamp_eq (v : Nat) : clamp v = min (max v 1000) 2000 := rfl

theorem clamp_mono {v w : Nat} (h : v ≤ w) : clamp v ≤ clamp w := by
  simp only [clamp, pwMin, pwMax]; omega

/-- Rounding toward zero as R14 writes it is the library's truncated division. -/
theorem tdiv_eq (a b : Int) : tdiv a b = Int.tdiv a b := by
  unfold tdiv
  split
  · next h => exact (Int.tdiv_eq_ediv_of_nonneg h).symm
  · next h =>
    rw [← Int.tdiv_eq_ediv_of_nonneg (by omega : 0 ≤ -a), Int.neg_tdiv, neg_neg]

/-- What truncation toward zero does to the absolute value, for a natural divisor. -/
theorem tdiv_natAbs (a : Int) (m : Nat) : (tdiv a m).natAbs = a.natAbs / m := by
  rw [tdiv_eq, Int.natAbs_tdiv, Int.natAbs_natCast]; rfl

theorem tdiv_nonneg {a : Int} (m : Nat) (h : 0 ≤ a) : 0 ≤ tdiv a m := by
  rw [tdiv_eq]; exact Int.tdiv_nonneg h (Int.natCast_nonneg m)

@[simp] theorem tdiv_neg (a : Int) (m : Nat) : tdiv (-a) m = -tdiv a m := by
  rw [tdiv_eq, tdiv_eq, Int.neg_tdiv]

end Sys2Proof.Machine
end

