-- ==== Sys2Proof/Laws/Decode.lean ====
section
/-! SUPPORT. The fields of an encoded command word (spec 30_encoding.md R42, R45 to R49). -/

namespace Sys2Proof.Machine

/-- The number an encoded command word is. -/
theorem commandWord_toNat {op : Nat} {args : List U16} (ho : op < 16) (ha : args.length ≤ 6) :
    (commandWord op args).toNat = op * 2 ^ 96 + pack 16 args := by
  have h1 := pack_lt 16 args
  have h2 : 2 ^ (16 * args.length) ≤ 2 ^ 96 := Nat.pow_le_pow_right (by decide) (by omega)
  rw [commandWord, BitVec.toNat_ofNat, Nat.mod_eq_of_lt]
  omega

theorem opField_commandWord {op : Nat} {args : List U16} (ho : op < 16) (ha : args.length ≤ 6) :
    opField (commandWord op args) = BitVec.ofNat 4 op := by
  have h1 := pack_lt 16 args
  have h2 : 2 ^ (16 * args.length) ≤ 2 ^ 96 := Nat.pow_le_pow_right (by decide) (by omega)
  apply BitVec.eq_of_toNat_eq
  rw [opField, BitVec.extractLsb'_toNat, commandWord_toNat ho ha, Nat.shiftRight_eq_div_pow, BitVec.toNat_ofNat]
  omega

theorem argField_commandWord {op : Nat} {args : List U16} (ho : op < 16) (ha : args.length ≤ 6) {k : Nat} (hk : k < 6) :
    argField (commandWord op args) k = args[k]?.getD 0#16 := by
  apply BitVec.eq_of_toNat_eq
  rw [argField, BitVec.extractLsb'_toNat, commandWord_toNat ho ha, Nat.shiftRight_eq_div_pow, ← pack_slice 16 args k]
  have : (2 : Nat) ^ 96 = 2 ^ (16 * k) * (2 ^ 16 * 2 ^ (16 * (5 - k))) := by
    rw [← pow_add, ← pow_add]; congr 1; omega
  rw [this, ← Nat.mul_assoc, Nat.mul_right_comm, Nat.mul_comm, Nat.mul_add_div (Nat.two_pow_pos _)]
  rw [show op * (2 ^ 16 * 2 ^ (16 * (5 - k))) = 2 ^ 16 * (op * 2 ^ (16 * (5 - k))) by ring, Nat.mul_add_mod]

theorem reservedClear_commandWord {op : Nat} {args : List U16} (ho : op < 16) {lo : Nat} (hl : 16 * args.length ≤ lo)
    (hlo : lo ≤ 96) : reservedClear (commandWord op args) lo = true := by
  have h1 := pack_lt 16 args
  have h2 : 2 ^ (16 * args.length) ≤ 2 ^ lo := Nat.pow_le_pow_right (by decide) hl
  have h3 : (2 : Nat) ^ 96 = 2 ^ lo * 2 ^ (96 - lo) := by rw [← pow_add]; congr 1; omega
  have h4 : (commandWord op args).extractLsb' lo (96 - lo) = 0 := by
    apply BitVec.eq_of_toNat_eq
    rw [BitVec.extractLsb'_toNat, commandWord_toNat ho (by omega), Nat.shiftRight_eq_div_pow, h3,
      show op * (2 ^ lo * 2 ^ (96 - lo)) = 2 ^ lo * (2 ^ (96 - lo) * op) by ring, Nat.mul_add_div (Nat.two_pow_pos _),
      Nat.div_eq_of_lt (by omega), Nat.add_zero, Nat.mul_mod_right]
    simp
  simp [reservedClear, h4]

/-- The `op` field is the word's top four bits as a number (30_encoding.md R42). -/
theorem opField_eq (w : CmdWord) : opField w = BitVec.ofNat 4 (w.toNat / 2 ^ 96) ∧ w.toNat / 2 ^ 96 < 16 := by
  have := w.isLt
  refine ⟨BitVec.eq_of_toNat_eq ?_, by omega⟩
  rw [opField, BitVec.extractLsb'_toNat, Nat.shiftRight_eq_div_pow, BitVec.toNat_ofNat]

/-- The 'must be 0' bits are clear exactly when `arg` is a number below them. -/
theorem reservedClear_iff (w : CmdWord) {lo : Nat} (h : lo ≤ 96) :
    reservedClear w lo = true ↔ w.toNat % 2 ^ 96 < 2 ^ lo := by
  have e : (2 : Nat) ^ 96 = 2 ^ lo * 2 ^ (96 - lo) := by rw [← pow_add]; congr 1; omega
  have hd : w.toNat / 2 ^ lo % 2 ^ (96 - lo) = w.toNat % 2 ^ 96 / 2 ^ lo := by rw [e, Nat.mod_mul_right_div_self]
  unfold reservedClear
  rw [beq_iff_eq, ← BitVec.toNat_inj, BitVec.extractLsb'_toNat, Nat.shiftRight_eq_div_pow, hd]
  simp [Nat.div_eq_zero_iff]

/-- Everything the command decoder can answer, by the operation code as a number (30_encoding.md R44, R54). -/
theorem decodeCommand_cases (w : CmdWord) :
    (w.toNat / 2 ^ 96 = 1 ∧ decodeCommand w = withReserved w 0 .snap) ∨
    (w.toNat / 2 ^ 96 = 2 ∧
      decodeCommand w = .ok (.cls (argU16 w 0) (argU16 w 1) (argU16 w 2) (argU16 w 3) (argU16 w 4) (argU16 w 5))) ∨
    (w.toNat / 2 ^ 96 = 4 ∧ decodeCommand w = withReserved w 16 (.mapLin (argU16 w 0))) ∨
    (w.toNat / 2 ^ 96 = 5 ∧ decodeCommand w = withReserved w 16 (.mapFold (argU16 w 0))) ∨
    (w.toNat / 2 ^ 96 = 6 ∧ decodeCommand w = withReserved w 16 (.mapSgn (argU16 w 0))) ∨
    (w.toNat / 2 ^ 96 = 7 ∧ decodeCommand w = withReserved w 32 (.mapHys (argU16 w 0) (argI16 w 1))) ∨
    (w.toNat / 2 ^ 96 = 8 ∧ decodeCommand w = withReserved w 48 (.mix (argI16 w 0) (argI16 w 1) (argI16 w 2))) ∨
    ((w.toNat / 2 ^ 96 = 0 ∨ w.toNat / 2 ^ 96 = 3 ∨ 9 ≤ w.toNat / 2 ^ 96) ∧
      decodeCommand w = .illegal (.unassignedOp (opField w))) := by
  obtain ⟨h1, h2⟩ := opField_eq w
  unfold decodeCommand
  rw [h1]
  generalize w.toNat / 2 ^ 96 = n at *
  interval_cases n <;> simp

/-- A format with reserved bits answers its operation exactly when they are clear (30_encoding.md R54). -/
theorem withReserved_ok {w : CmdWord} {lo : Nat} {i j : Instr} (h : lo ≤ 96) :
    withReserved w lo i = .ok j ↔ i = j ∧ w.toNat % 2 ^ 96 < 2 ^ lo := by
  rw [← reservedClear_iff w h]
  by_cases c : reservedClear w lo = true <;> simp [withReserved, c]

end Sys2Proof.Machine
end

