-- ==== Sys2Proof/Laws/State.lean ====
section
/-! SUPPORT. One lemma per field per update of the state (Machine/Ops.lean), so that no later proof unfolds an update. -/

namespace Sys2Proof.Machine

variable (s : State) (r : Response) (data : RspWord) (d : Decoder) (cur el : Nat)

@[simp] theorem respond_u1 : (s.respond r).u1 = s.u1 := rfl
@[simp] theorem respond_inputs : (s.respond r).inputs = s.inputs := rfl
@[simp] theorem respond_arbs : (s.respond r).arbs = s.arbs := rfl
@[simp] theorem respond_responses : (s.respond r).responses = s.responses ++ [r] := rfl

@[simp] theorem answer_u1 : (s.answer data).u1 = s.u1 := rfl
@[simp] theorem answer_inputs : (s.answer data).inputs = s.inputs := rfl
@[simp] theorem answer_arbs : (s.answer data).arbs = s.arbs := rfl
@[simp] theorem answer_responses : (s.answer data).responses = s.responses ++ [⟨false, data⟩] := rfl

@[simp] theorem raiseIllegalCmd_u1 : s.raiseIllegalCmd.u1 = s.u1 := rfl
@[simp] theorem raiseIllegalCmd_inputs : s.raiseIllegalCmd.inputs = s.inputs := rfl
@[simp] theorem raiseIllegalCmd_arbs : s.raiseIllegalCmd.arbs = s.arbs := rfl
@[simp] theorem raiseIllegalCmd_responses : s.raiseIllegalCmd.responses = s.responses ++ [⟨true, 0#144⟩] := rfl

@[simp] theorem assertReset_u1 : s.assertReset.u1 = Decoder.reset := rfl
@[simp] theorem assertReset_inputs : s.assertReset.inputs = s.inputs := rfl
@[simp] theorem assertReset_arbs : s.assertReset.arbs = s.arbs := rfl
@[simp] theorem assertReset_responses : s.assertReset.responses = s.responses := rfl

@[simp] theorem recordTick_ch : (d.recordTick cur).ch = d.ch := rfl
@[simp] theorem recordTick_idx : (d.recordTick cur).idx = d.idx := rfl
@[simp] theorem recordTick_lt : (d.recordTick cur).lt = BitVec.ofNat 32 cur := rfl

@[simp] theorem syncGap_ch : d.syncGap.ch = d.ch := rfl
@[simp] theorem syncGap_idx : d.syncGap.idx = 0 := rfl
@[simp] theorem syncGap_lt : d.syncGap.lt = d.lt := rfl

@[simp] theorem pulse_lt : (d.pulse el).lt = d.lt := by
  unfold Decoder.pulse; split <;> rfl

/-- A pulse advances `idx` and saturates at 6 (spec 10_state.md R22). -/
theorem pulse_idx : (d.pulse el).idx.val = min (d.idx.val + 1) 6 := by
  unfold Decoder.pulse
  split
  · simp only; omega
  · omega

/-- Reading a slot after writing one (spec 00_scope.md R13). -/
@[simp] theorem Frame.get_set (f : Frame) (i j : Fin 6) (v : U16) :
    (f.set i v).get j = if j = i then v else f.get j := by
  fin_cases i <;> fin_cases j <;> rfl

/-- Two frames with equal slots are equal. -/
theorem Frame.ext_get {f g : Frame} (h : ∀ i, f.get i = g.get i) : f = g := by
  obtain ⟨a0, a1, a2, a3, a4, a5⟩ := f
  obtain ⟨b0, b1, b2, b3, b4, b5⟩ := g
  have h0 : a0 = b0 := h 0
  have h1 : a1 = b1 := h 1
  have h2 : a2 = b2 := h 2
  have h3 : a3 = b3 := h 3
  have h4 : a4 = b4 := h 4
  have h5 : a5 = b5 := h 5
  subst h0 h1 h2 h3 h4 h5
  rfl

/-- What a pulse leaves in a slot: its width in the open one, what was there in the others. -/
theorem pulse_get (j : Fin 6) :
    (d.pulse el).ch.get j = if j.val = d.idx.val then u16 el else d.ch.get j := by
  unfold Decoder.pulse
  split
  · simp [Fin.ext_iff]
  · have hj := j.isLt
    rw [if_neg (by omega)]

end Sys2Proof.Machine
end

