-- ==== Sys2Proof/Laws/Ops.lean ====
section
/-! SUPPORT. What each shared operation of Machine/Ops.lean can do, said once. -/

namespace Sys2Proof.Params

theorem tickPeriod_pos (P : Params) : 0 < P.tickPeriod := by
  have := P.two_le_tickPeriod; omega

/-- The tick an edge event records is below the counter's period (spec 00_scope.md R9). -/
theorem cur_lt (P : Params) (tick : Nat) : tick % P.tickPeriod < P.tickPeriod :=
  Nat.mod_lt _ P.tickPeriod_pos

/-- A tick below the period survives the 32-bit register of `lt` (10_state.md R17). -/
theorem toNat_cur (P : Params) (tick : Nat) :
    (BitVec.ofNat 32 (tick % P.tickPeriod)).toNat = tick % P.tickPeriod := by
  have h1 := P.cur_lt tick
  have h2 := P.tickPeriod_le
  rw [BitVec.toNat_ofNat, Nat.mod_eq_of_lt (by omega)]

end Sys2Proof.Params

namespace Sys2Proof.Machine

/-- The elapsed time as an integer, in the words of 40_decoder.md R58. -/
theorem elapsedUs_cast (P : Params) (cur lt : Nat) :
    (elapsedUs P cur lt : Int) = (((cur : Int) - lt) % P.tickPeriod) * 4 := by
  have h := Int.emod_nonneg ((cur : Int) - lt) (by have := P.tickPeriod_pos; omega : (P.tickPeriod : Int) ≠ 0)
  simp only [elapsedUs, tickUs]
  omega

/-- The elapsed time is a multiple of 4 (40_decoder.md R59). -/
theorem elapsedUs_mod_four (P : Params) (cur lt : Nat) : elapsedUs P cur lt % 4 = 0 := by
  simp [elapsedUs, tickUs]

/-- The elapsed time is less than one period (40_decoder.md R59). -/
theorem elapsedUs_lt (P : Params) (cur lt : Nat) : elapsedUs P cur lt < 4 * P.tickPeriod := by
  have h := Int.emod_lt_of_pos ((cur : Int) - lt) (by have := P.tickPeriod_pos; omega : (0 : Int) < P.tickPeriod)
  have := elapsedUs_cast P cur lt
  omega

/-- No time passes between two edges with the same tick. -/
@[simp] theorem elapsedUs_self (P : Params) (t : Nat) : elapsedUs P t t = 0 := by simp [elapsedUs]

/-- An edge event is a pulse or a sync gap by its elapsed time alone (40_decoder.md R58, R59). -/
theorem edgeEvent_cases (P : Params) (tick : Nat) (d : Decoder) :
    (elapsedUs P (tick % P.tickPeriod) d.lt.toNat < P.syncGapUs ∧
      d.edgeEvent P tick = (d.recordTick (tick % P.tickPeriod)).pulse (elapsedUs P (tick % P.tickPeriod) d.lt.toNat)) ∨
    (P.syncGapUs ≤ elapsedUs P (tick % P.tickPeriod) d.lt.toNat ∧
      d.edgeEvent P tick = (d.recordTick (tick % P.tickPeriod)).syncGap) := by
  by_cases h : elapsedUs P (tick % P.tickPeriod) d.lt.toNat < P.syncGapUs
  · exact .inl ⟨h, by simp [Decoder.edgeEvent, isPulse, h]⟩
  · exact .inr ⟨by omega, by simp [Decoder.edgeEvent, isPulse, h]⟩

/-- Every edge event records its reduced tick (40_decoder.md R58). -/
theorem edgeEvent_lt (P : Params) (tick : Nat) (d : Decoder) :
    (d.edgeEvent P tick).lt.toNat = tick % P.tickPeriod := by
  rcases edgeEvent_cases P tick d with ⟨_, h⟩ | ⟨_, h⟩ <;> simp only [h, pulse_lt, syncGap_lt, recordTick_lt, P.toNat_cur]

/-- A pulse on U1 as a whole: `idx` advances and saturates; the open slot takes the elapsed time; the others stay. -/
theorem edgeEvent_of_pulse {P : Params} {tick : Nat} {d : Decoder}
    (h : elapsedUs P (tick % P.tickPeriod) d.lt.toNat < P.syncGapUs) :
    (d.edgeEvent P tick).idx.val = min (d.idx.val + 1) 6 ∧
    ∀ j : Fin 6, (d.edgeEvent P tick).ch.get j =
      if j.val = d.idx.val then u16 (elapsedUs P (tick % P.tickPeriod) d.lt.toNat) else d.ch.get j := by
  rcases edgeEvent_cases P tick d with ⟨_, h'⟩ | ⟨h', _⟩
  · rw [h']
    exact ⟨by rw [pulse_idx, recordTick_idx], fun j => by rw [pulse_get, recordTick_idx, recordTick_ch]⟩
  · omega

/-- A sync gap on U1 as a whole: `idx` is 0 and no channel value changes. -/
theorem edgeEvent_of_gap {P : Params} {tick : Nat} {d : Decoder}
    (h : P.syncGapUs ≤ elapsedUs P (tick % P.tickPeriod) d.lt.toNat) :
    (d.edgeEvent P tick).idx = 0 ∧ (d.edgeEvent P tick).ch = d.ch := by
  rcases edgeEvent_cases P tick d with ⟨h', _⟩ | ⟨_, h'⟩
  · omega
  · rw [h']; exact ⟨rfl, rfl⟩

/-- A pulse's elapsed time fits a slot without loss (40_decoder.md R60). -/
theorem pulse_fits {P : Params} {el : Nat} (h : el < P.syncGapUs) : (u16 el).toNat = el := by
  have := P.syncGapUs_le
  exact u16_toNat (by omega)

/-- Slot `i` of a frame result is channel `i` (30_encoding.md R51). -/
theorem frameResult_slice (f : Frame) (i : Fin 6) :
    (frameResult f).extractLsb' (16 * i.val) 16 = f.get i := by
  rw [frameResult, ofNat_pack_slice _ _ _ _ (by simp [Frame.toList])]
  fin_cases i <;> rfl

/-- Bits 143:96 of a frame result are 0 (30_encoding.md R51). -/
theorem frameResult_above (f : Frame) : (frameResult f).extractLsb' 96 48 = 0#48 :=
  ofNat_pack_above _ _ _ _ _ (by simp [Frame.toList]) (by simp [Frame.toList])

/-- The low field of a scalar result (30_encoding.md R53). -/
theorem scalarResult_low (y : Int) : (scalarResult y).extractLsb' 0 16 = i16 y :=
  ofNat_pack_slice 144 16 [i16 y] 0 (by simp)

/-- Bits 143:16 of a scalar result are 0 (30_encoding.md R53). -/
theorem scalarResult_above (y : Int) : (scalarResult y).extractLsb' 16 128 = 0#128 :=
  ofNat_pack_above _ _ _ _ _ (by simp) (by simp)

/-- A scalar result that is a small natural number is that number. -/
theorem scalarResult_toNat {y : Nat} (h : y < 65536) : (scalarResult (y : Int)).toNat = y := by
  have h2 : ((i16 (y : Int))).toNat = y := by
    simp only [i16, BitVec.toNat_ofInt]
    omega
  simp only [scalarResult, pack, h2, BitVec.toNat_ofNat]
  omega

end Sys2Proof.Machine
end

