-- ==== Sys2Proof/Laws/PerInstr.lean ====
section
/-! SUPPORT. The family EncodedRow: an operation's word is on the port of its row of the opcode table, and carries the
row's operation code (spec 30_encoding.md R44). -/

namespace Sys2Proof.Laws.EncodedRow

open Sys2Proof.Machine

/-- The word of `i` is an edge word for EDGE alone, and otherwise carries the operation code of the row `i` is named by. -/
def Statement (i : Instr) : Prop :=
  match encode i with
  | .edge _ => i.mnemonic = "EDGE"
  | .command w => ∃ row ∈ commandRows, row.mnemonic = i.mnemonic ∧ opField w = opField row.pattern

theorem edge (tick : Nat) : Statement (.edge tick) := rfl

theorem snap : Statement .snap :=
  ⟨commandRows[0], by decide, rfl, (opField_commandWord (by decide) (by decide)).trans (by decide)⟩

theorem cls (v0 v1 v2 v3 v4 v5 : Nat) : Statement (.cls v0 v1 v2 v3 v4 v5) :=
  ⟨commandRows[1], by decide, rfl, (opField_commandWord (by decide) (by simp)).trans (by decide)⟩

theorem mapLin (v : Nat) : Statement (.mapLin v) :=
  ⟨commandRows[2], by decide, rfl, (opField_commandWord (by decide) (by simp)).trans (by decide)⟩

theorem mapFold (v : Nat) : Statement (.mapFold v) :=
  ⟨commandRows[3], by decide, rfl, (opField_commandWord (by decide) (by simp)).trans (by decide)⟩

theorem mapSgn (v : Nat) : Statement (.mapSgn v) :=
  ⟨commandRows[4], by decide, rfl, (opField_commandWord (by decide) (by simp)).trans (by decide)⟩

theorem mapHys (v : Nat) (p : Int) : Statement (.mapHys v p) :=
  ⟨commandRows[5], by decide, rfl, (opField_commandWord (by decide) (by simp)).trans (by decide)⟩

theorem mix (fwd strafe rot : Int) : Statement (.mix fwd strafe rot) :=
  ⟨commandRows[6], by decide, rfl, (opField_commandWord (by decide) (by simp)).trans (by decide)⟩

end Sys2Proof.Laws.EncodedRow
end

