-- ==== Sys2Proof/Laws/Units.lean ====
section
/-! SUPPORT. The functions of units U2, U3 and U4 in forms a proof can use. -/

namespace Sys2Proof.Machine

/-- `fold(v)` is the distance from the centre, scaled (spec 42_mapper.md R76). -/
theorem foldMagnitude_eq (v : Nat) : foldMagnitude v = ((clamp v : Int) - 1500).natAbs * 255 / 500 := by
  simp only [foldMagnitude, pwCenter, outMax]
  split <;> omega

theorem linMagnitude_le (v : Nat) : linMagnitude v ≤ 255 := by
  have := clamp_bounds v
  simp only [linMagnitude, pwMin, outMax]; omega

theorem foldMagnitude_le (v : Nat) : foldMagnitude v ≤ 255 := by
  have := clamp_bounds v
  rw [foldMagnitude_eq]; omega

theorem sgnMagnitude_bounds (v : Nat) : -255 ≤ sgnMagnitude v ∧ sgnMagnitude v ≤ 255 := by
  have := clamp_bounds v
  simp only [sgnMagnitude, dzHi, dzLo, outMax]
  split
  · omega
  · split <;> omega

/-- The two results MAP.HYS can give (42_mapper.md R79). -/
theorem hysMagnitude_eq (v : Nat) (p : Int) :
    hysMagnitude v p = if ((foldMagnitude v : Int) - p).natAbs ≤ 2 then p else (foldMagnitude v : Int) := by
  by_cases h : ((foldMagnitude v : Int) - p).natAbs ≤ 2 <;> simp [hysMagnitude, withinBand, hysBand, h]

/-- The mixer's output of one wheel, from its sum and the peak (43_mixer.md R84). -/
theorem normalise_get (w : Wheels) (k : Fin 4) :
    (normalise w).get k = if w.peak > 255 then tdiv (w.get k * 255) w.peak else w.get k := by
  unfold normalise
  by_cases h : w.peak > 255
  · have hs : saturates w.peak = true := by simpa [saturates, outMax] using h
    rw [if_pos hs, if_pos h]
    fin_cases k <;> rfl
  · have hs : ¬ saturates w.peak = true := by simpa [saturates, outMax] using h
    rw [if_neg hs, if_neg h]

/-- No value exceeds the peak (43_mixer.md R84). -/
theorem natAbs_le_peak (w : Wheels) (k : Fin 4) : (w.get k).natAbs ≤ w.peak := by
  fin_cases k <;> simp [Wheels.get, Wheels.peak]

/-- Some value is the peak. -/
theorem exists_peak (w : Wheels) : ∃ k, (w.get k).natAbs = w.peak := by
  have h : (w.get 0).natAbs = w.peak ∨ (w.get 1).natAbs = w.peak ∨ (w.get 2).natAbs = w.peak ∨
      (w.get 3).natAbs = w.peak := by
    show w.a.natAbs = _ ∨ w.b.natAbs = _ ∨ w.c.natAbs = _ ∨ w.d.natAbs = _
    simp only [Wheels.peak]; omega
  rcases h with h | h | h | h
  exacts [⟨0, h⟩, ⟨1, h⟩, ⟨2, h⟩, ⟨3, h⟩]

/-- Field `k` of a mix result is wheel `k` (30_encoding.md R53). -/
theorem wheelsResult_slice (w : Wheels) (k : Fin 4) :
    (wheelsResult w).extractLsb' (16 * k.val) 16 = i16 (w.get k) := by
  rw [wheelsResult, ofNat_pack_slice _ _ _ _ (by simp)]
  fin_cases k <;> rfl

/-- Bits 143:64 of a mix result are 0 (30_encoding.md R53). -/
theorem wheelsResult_above (w : Wheels) : (wheelsResult w).extractLsb' 64 80 = 0#80 :=
  ofNat_pack_above _ _ _ _ _ (by simp) (by simp)

/-- The width a bucket carries (41_classifier.md R69). -/
def Bucket.width : Bucket → Nat
  | .centered w => w
  | .atMin w => w
  | .atMax w => w

/-- The tag code of a bucket (30_encoding.md R52). -/
def Bucket.tag : Bucket → BitVec 2
  | .centered _ => 0#2
  | .atMin _ => 1#2
  | .atMax _ => 2#2

theorem bucket_width (c : Fin 6) (v : Nat) : (bucket c v).width = clamp v := by
  simp only [bucket]; split
  · rfl
  · split <;> rfl

theorem bucket_tag (c : Fin 6) (v : Nat) :
    (bucket c v).tag = if clamp v > clsHi c then 2#2 else if clamp v < clsLo c then 1#2 else 0#2 := by
  by_cases h1 : clamp v > clsHi c <;> by_cases h2 : clamp v < clsLo c <;>
    simp [bucket, aboveHi, belowLo, h1, h2, Bucket.tag]

/-- A slot is its tag above its width (30_encoding.md R52). -/
theorem slotBits_eq (b : Bucket) : slotBits b = b.tag ++ u16 b.width := by cases b <;> rfl

/-- Slot `k` of a classification result is the bits of the `k`-th bucket (30_encoding.md R52). -/
theorem classificationResult_slice (q : Classification) {k : Nat} {b : Bucket} (h : q.slots[k]? = some b) :
    (classificationResult q).extractLsb' (18 * k) 18 = b.tag ++ u16 b.width := by
  rw [classificationResult, ofNat_pack_slice _ _ _ _ (by simp [Classification.slots])]
  simp [h, slotBits_eq]

end Sys2Proof.Machine
end

