-- ==== Sys2Proof/Laws/Step.lean ====
section
/-! SUPPORT. What exec and step can do, said once. -/

namespace Sys2Proof.Machine

@[simp] theorem exec_edge (tick : Nat) (s : State) :
    exec (.edge tick) s = .next { s with u1 := s.u1.edgeEvent Config.params tick } := rfl
@[simp] theorem exec_snap (s : State) : exec .snap s = .next (s.answer (frameResult s.u1.ch)) := rfl
@[simp] theorem exec_cls (v0 v1 v2 v3 v4 v5 : Nat) (s : State) :
    exec (.cls v0 v1 v2 v3 v4 v5) s = .next (s.answer (classificationResult (classify v0 v1 v2 v3 v4 v5))) := rfl
@[simp] theorem exec_mapLin (v : Nat) (s : State) :
    exec (.mapLin v) s = .next (s.answer (scalarResult (linMagnitude v))) := rfl
@[simp] theorem exec_mapFold (v : Nat) (s : State) :
    exec (.mapFold v) s = .next (s.answer (scalarResult (foldMagnitude v))) := rfl
@[simp] theorem exec_mapSgn (v : Nat) (s : State) :
    exec (.mapSgn v) s = .next (s.answer (scalarResult (sgnMagnitude v))) := rfl
@[simp] theorem exec_mapHys (v : Nat) (p : Int) (s : State) :
    exec (.mapHys v p) s = .next (s.answer (scalarResult (hysMagnitude v p))) := rfl
@[simp] theorem exec_mix (f g r : Int) (s : State) :
    exec (.mix f g r) s = .next (s.answer (wheelsResult (normalise (mixSums f g r)))) := rfl

/-- An operation is an edge event, which writes U1 only, or a command, which answers only; a command's answer is fixed by
its operands, and for SNAP by the channel table (spec 10_state.md R19). -/
theorem exec_cases (i : Instr) :
    (∃ tick, i = .edge tick) ∨ (i = .snap) ∨
    (∃ data, (∀ tick, i ≠ .edge tick) ∧ i ≠ .snap ∧ ∀ s, exec i s = .next (s.answer data)) := by
  cases i with
  | edge tick => exact .inl ⟨tick, rfl⟩
  | snap => exact .inr (.inl rfl)
  | cls v0 v1 v2 v3 v4 v5 => exact .inr (.inr ⟨_, nofun, nofun, exec_cls v0 v1 v2 v3 v4 v5⟩)
  | mapLin v => exact .inr (.inr ⟨_, nofun, nofun, exec_mapLin v⟩)
  | mapFold v => exact .inr (.inr ⟨_, nofun, nofun, exec_mapFold v⟩)
  | mapSgn v => exact .inr (.inr ⟨_, nofun, nofun, exec_mapSgn v⟩)
  | mapHys v p => exact .inr (.inr ⟨_, nofun, nofun, exec_mapHys v p⟩)
  | mix f g r => exact .inr (.inr ⟨_, nofun, nofun, exec_mix f g r⟩)

/-- A command answers once, without error, and changes nothing else. -/
theorem exec_command {i : Instr} (h : ∀ tick, i ≠ .edge tick) (s : State) : ∃ data, exec i s = .next (s.answer data) := by
  rcases exec_cases i with ⟨tick, hi⟩ | hi | ⟨data, _, _, hx⟩
  · exact absurd hi (h tick)
  · exact ⟨_, by rw [hi, exec_snap]⟩
  · exact ⟨data, hx s⟩

theorem step_idle {s : State} (h : s.inputs = []) : step s = .next s := by simp [step, fetch, h]

theorem step_reset {s : State} {rest : List Presentation} (h : s.inputs = .reset :: rest) :
    step s = .next { s with inputs := rest, u1 := Decoder.reset } := by simp [step, fetch, h, State.assertReset]

theorem step_edge {s : State} {rest : List Presentation} {tick : EdgeWord} (h : s.inputs = .one (.edge tick) :: rest) :
    step s = .next { s with inputs := rest, u1 := s.u1.edgeEvent Config.params tick.toNat } := by
  simp [step, fetch, h, present, decode]

theorem step_command_ok {s : State} {rest : List Presentation} {cmd : CmdWord} {i : Instr}
    (h : s.inputs = .one (.command cmd) :: rest) (hd : decode (.command cmd) = .ok i) :
    step s = exec i { s with inputs := rest } := by simp [step, fetch, h, present, hd]

theorem step_command_illegal {s : State} {rest : List Presentation} {cmd : CmdWord} {why : IllegalCmd}
    (h : s.inputs = .one (.command cmd) :: rest) (hd : decode (.command cmd) = .illegal why) :
    step s = .next (State.raiseIllegalCmd { s with inputs := rest }) := by simp [step, fetch, h, present, hd]

/-- Simultaneous presentations: one of the two orders (60_exceptions.md R98). -/
theorem step_both {s : State} {rest : List Presentation} {tick : EdgeWord} {cmd : CmdWord}
    (h : s.inputs = .both tick cmd :: rest) :
    step s = step { s with
      inputs := if Config.edgeFirst s.arbs then .one (.edge tick) :: .one (.command cmd) :: rest
        else .one (.command cmd) :: .one (.edge tick) :: rest,
      arbs := s.arbs + 1 } := by
  by_cases hb : Config.edgeFirst s.arbs = true
  · simp [step, fetch, h, arbitrate, hb, present, decode]
  · cases hd : decode (.command cmd) <;> simp [step, fetch, h, arbitrate, hb, present, hd]

/-- A command word never decodes to an edge event (30_encoding.md R54). -/
theorem decodeCommand_ne_edge {w : CmdWord} {i : Instr} (h : decodeCommand w = .ok i) (tick : Nat) : i ≠ .edge tick := by
  rintro rfl
  unfold decodeCommand withReserved at h
  split at h <;> (try split at h) <;> cases h

/-- Everything a step can do: nothing, take the reset values, run one edge event on U1, or present one response; the
presentations that remain and the counter are whatever the ports leave. -/
theorem step_cases (s : State) : ∃ t, step s = .next t ∧
    ((t.u1 = s.u1 ∧ t.responses = s.responses) ∨
     (t.u1 = Decoder.reset ∧ t.responses = s.responses) ∨
     (∃ tick, t.u1 = s.u1.edgeEvent Config.params tick ∧ t.responses = s.responses) ∨
     (t.u1 = s.u1 ∧ ∃ r : Response, t.responses = s.responses ++ [r] ∧ (r.err = true → r.data = 0#144))) := by
  have hone : ∀ (p : PortWord) (rest : List Presentation) (s : State), s.inputs = .one p :: rest →
      ∃ t, step s = .next t ∧
        ((∃ tick, t.u1 = s.u1.edgeEvent Config.params tick ∧ t.responses = s.responses) ∨
         (t.u1 = s.u1 ∧ ∃ r : Response, t.responses = s.responses ++ [r] ∧ (r.err = true → r.data = 0#144))) := by
    intro p rest s h
    cases p with
    | edge w => exact ⟨_, step_edge h, .inl ⟨w.toNat, rfl, rfl⟩⟩
    | command w =>
      cases hd : decode (.command w) with
      | illegal why => exact ⟨_, step_command_illegal h hd, .inr ⟨rfl, ⟨true, 0#144⟩, rfl, fun _ => rfl⟩⟩
      | ok i =>
        obtain ⟨data, hx⟩ := exec_command (decodeCommand_ne_edge hd) { s with inputs := rest }
        exact ⟨_, (step_command_ok h hd).trans hx, .inr ⟨rfl, ⟨false, data⟩, rfl, nofun⟩⟩
  cases hi : s.inputs with
  | nil => exact ⟨s, step_idle hi, .inl ⟨rfl, rfl⟩⟩
  | cons x rest =>
    cases x with
    | reset => exact ⟨_, step_reset hi, .inr (.inl ⟨rfl, rfl⟩)⟩
    | one p =>
      obtain ⟨t, ht, h⟩ := hone p rest s hi
      exact ⟨t, ht, .inr (.inr h)⟩
    | both tick cmd =>
      rw [step_both hi]
      by_cases hb : Config.edgeFirst s.arbs = true
      · obtain ⟨t, ht, h⟩ := hone (.edge tick) (.one (.command cmd) :: rest)
          { s with inputs := .one (.edge tick) :: .one (.command cmd) :: rest, arbs := s.arbs + 1 } rfl
        exact ⟨t, by rw [if_pos hb]; exact ht, .inr (.inr h)⟩
      · obtain ⟨t, ht, h⟩ := hone (.command cmd) (.one (.edge tick) :: rest)
          { s with inputs := .one (.command cmd) :: .one (.edge tick) :: rest, arbs := s.arbs + 1 } rfl
        exact ⟨t, by rw [if_neg hb]; exact ht, .inr (.inr h)⟩

end Sys2Proof.Machine
end

