-- ==== Sys2Proof/Laws/Signal.lean ====
section
/-! SUPPORT. Sequences of edge events (spec 40_decoder.md R58, R62): the induction over them, done once. -/

namespace Sys2Proof.Machine

theorem edgeWidths_length (P : Params) (lt : Nat) (ts : List Nat) : (edgeWidths P lt ts).length = ts.length := by
  induction ts generalizing lt with
  | nil => rfl
  | cons t ts ih => simp [edgeWidths, ih]

theorem ticksAfter_length (t : Nat) (dts : List Nat) : (ticksAfter t dts).length = dts.length := by
  induction dts generalizing t with
  | nil => rfl
  | cons a b ih => simp [ticksAfter, ih]

/-- Steps over edge presentations are edge events on U1, in order, and nothing else. -/
theorem run_edges (ticks : List EdgeWord) (s : State) (rest : List Presentation)
    (h : s.inputs = edgePresentations ticks ++ rest) :
    Host.Core.run Sys2Proof.core ticks.length s = .next { s with
      inputs := rest
      u1 := (ticks.map BitVec.toNat).foldl (fun d t => d.edgeEvent Config.params t) s.u1 } := by
  induction ticks generalizing s with
  | nil => simp [edgePresentations] at h; subst h; rfl
  | cons t ts ih =>
    have hs := step_edge (s := s) (tick := t) (rest := edgePresentations ts ++ rest)
      (by simpa [edgePresentations] using h)
    exact (run_next hs _).trans (ih _ rfl)

/-- What pulses leave: they fill the slots from `idx` up, in order, and `idx` saturates at 6. -/
theorem foldl_pulses (P : Params) (ticks : List Nat) (d : Decoder)
    (h : AllPulses P (edgeWidths P d.lt.toNat ticks)) :
    (ticks.foldl (fun d t => d.edgeEvent P t) d).idx.val = min (d.idx.val + ticks.length) 6 ∧
    ∀ i : Fin 6, (ticks.foldl (fun d t => d.edgeEvent P t) d).ch.get i = if d.idx.val ≤ i.val then
      ((edgeWidths P d.lt.toNat ticks)[i.val - d.idx.val]?.map u16).getD (d.ch.get i) else d.ch.get i := by
  induction ticks generalizing d with
  | nil => have := d.idx.isLt; simp [edgeWidths]; omega
  | cons t ts ih =>
    have h0 : elapsedUs P (t % P.tickPeriod) d.lt.toNat < P.syncGapUs := h _ (by simp [edgeWidths])
    obtain ⟨e1, e2⟩ := edgeEvent_of_pulse h0
    have elt := edgeEvent_lt P t d
    have h' : AllPulses P (edgeWidths P (d.edgeEvent P t).lt.toNat ts) := by
      rw [elt]; intro el hel; exact h el (by simp [edgeWidths, hel])
    obtain ⟨i1, i2⟩ := ih _ h'
    simp only [List.foldl_cons, List.length_cons]
    have hd := d.idx.isLt
    refine ⟨by rw [i1, e1]; omega, fun i => ?_⟩
    rw [i2, e1, e2, elt]
    have hi := i.isLt
    by_cases c1 : i.val < d.idx.val
    · rw [if_neg (by omega), if_neg (by omega), if_neg (by omega)]
    · by_cases c2 : i.val = d.idx.val
      · rw [if_neg (by omega), if_pos c2, if_pos (by omega)]
        simp [edgeWidths, c2]
      · rw [if_pos (by omega), if_neg c2, if_pos (by omega)]
        simp only [edgeWidths]
        rw [show i.val - d.idx.val = (i.val - min (d.idx.val + 1) 6) + 1 by omega]
        simp

end Sys2Proof.Machine
end

