-- ==== Sys2Proof/Tests/Slice0.lean ====
section
/-! SUPPORT. Tests: words and results from spec 95_test_vectors.md, ill-formed operands, and one witness for the
hypotheses of each statement that has some. -/

namespace Sys2Proof.Tests

open Sys2Proof.Machine

/-- The instance REF of 92_eei_decisions.md D21, for test vectors only. -/
def ref : Params where
  tickPeriod := 65536
  syncGapUs := 3000

/-- U1 with the channel values of program P1's end. -/
def u1At (idx : Fin 7) (lt : BitVec 32) : Decoder := ⟨⟨1500, 1600, 1400, 1500, 1000, 2000⟩, idx, lt⟩

/-- A state with `u1` and presentations still to come. -/
def at' (u1 : Decoder) (inputs : List Presentation) : State := ⟨u1, inputs, [], 0⟩

/-- A state that presents one command word. -/
def cmd (w : CmdWord) : State := at' (u1At 0 0) [.one (.command w)]

/-- The response word the next step presents, when it presents one without error. -/
def rspOf (s : State) : Option RspWord :=
  match step s with
  | .next t => match t.responses with
    | [⟨false, d⟩] => some d
    | _ => none
  | _ => none

/-! ## Ill-formed operands (30_encoding.md R56) -/

theorem test_wellFormed_tick : (Instr.edge 4294967296).wellFormed = false ∧ (Instr.edge 4294967295).wellFormed = true := by
  decide
theorem test_wellFormed_u16 : (Instr.mapLin 65536).wellFormed = false ∧ (Instr.mapLin 65535).wellFormed = true := by
  decide
theorem test_wellFormed_i16_high : (Instr.mapHys 0 32768).wellFormed = false ∧ (Instr.mapHys 0 32767).wellFormed = true := by
  decide
theorem test_wellFormed_i16_low : (Instr.mix 0 0 (-32769)).wellFormed = false ∧ (Instr.mix 0 0 (-32768)).wellFormed = true := by
  decide
theorem test_wellFormed_each_field : (Instr.cls 0 0 0 0 0 65536).wellFormed = false ∧ (Instr.mapFold 65536).wellFormed = false ∧
    (Instr.mapSgn 65536).wellFormed = false ∧ (Instr.mapHys 65536 0).wellFormed = false ∧
    (Instr.mix 32768 0 0).wellFormed = false ∧ (Instr.mix 0 32768 0).wellFormed = false := by decide

/-! ## Decoding: words of 95_test_vectors.md, and the field order written out bit by bit -/

/-- V-EDGE-14. -/
theorem test_decode_edge : decodeTableWord 32 0xFFFFFFFF = some (.edge 4294967295) := by decide
/-- V-SNAP-1, V-ILL-5. -/
theorem test_decode_snap : decodeTableWord 100 0x1000000000000000000000000 = some .snap ∧
    decodeTableWord 104 0x1000000000000000000000001 = none := by decide
/-- V-CLS-6: six fields, channel 0 lowest. -/
theorem test_decode_cls : decodeTableWord 100 0x207D003E805DC05DB064005DC = some (.cls 1500 1600 1499 1500 1000 2000) := by
  decide
/-- X2, V-ILL-7. -/
theorem test_decode_mapLin : decodeTableWord 100 0x40000000000000000000001F4 = some (.mapLin 500) ∧
    decodeTableWord 100 0x40000000000000000000105DC = none := by decide
/-- Section 2.4. -/
theorem test_decode_mapFold : decodeTableWord 100 0x50000000000000000000004E2 = some (.mapFold 1250) := by decide
/-- X5, V-ILL-8. -/
theorem test_decode_mapSgn : decodeTableWord 100 0x6000000000000000000000610 = some (.mapSgn 1552) ∧
    decodeTableWord 100 0x68000000000000000000005DC = none := by decide
/-- V-HYS-11, V-ILL-9. -/
theorem test_decode_mapHys : decodeTableWord 100 0x70000000000000000800007D0 = some (.mapHys 2000 (-32768)) ∧
    decodeTableWord 100 0x7000000000000000100320640 = none := by decide
/-- V-MIX-17, V-ILL-10. -/
theorem test_decode_mix : decodeTableWord 100 0x8000000000000800080007FFF = some (.mix 32767 (-32768) (-32768)) ∧
    decodeTableWord 100 0x8000000000001000000000064 = none := by decide
/-- R49 written out: op 1000, 48 zero bits, r = 1, s = 2, f = 3. -/
theorem test_decode_bits : decodeCommand
    (0b1000#4 ++ 0#48 ++ 0b0000000000000001#16 ++ 0b0000000000000010#16 ++ 0b0000000000000011#16) = .ok (.mix 3 2 1) := by
  decide
/-- V-ILL-1 to V-ILL-4: the unassigned operation codes. -/
theorem test_decode_unassigned : ∀ op ∈ ([0x0, 0x3, 0x9, 0xA, 0xB, 0xC, 0xD, 0xE, 0xF] : List (BitVec 4)),
    decodeCommand (op ++ 0#96) = .illegal (.unassignedOp op) := by decide
/-- The words the spec writes for V-CLS-1 and V-MIX-9. -/
theorem test_encode : encode (.cls 1551 1449 1500 1550 900 2100) = .command 0x208340384060E05DC05A9060F#100 ∧
    encode (.mix (-300) 100 0) = .command 0x800000000000000000064FED4#100 := by decide

/-! ## One operation each, results from 95_test_vectors.md -/

/-- V-EDGE-3, V-EDGE-4: the last slot, and the pulse after it. -/
theorem test_edge_pulse : (u1At 5 4000).edgeEvent ref 4500 = u1At 6 4500 ∧
    (u1At 6 4000).edgeEvent ref 4500 = u1At 6 4500 := by decide
/-- V-EDGE-7, V-EDGE-8, V-EDGE-9: just below the threshold, at it, and across the counter's wrap. -/
theorem test_edge_threshold : ((u1At 1 1000).edgeEvent ref 1749).ch.get 1 = 2996#16 ∧
    (u1At 1 1000).edgeEvent ref 1750 = u1At 0 1750 ∧ ((u1At 4 65500).edgeEvent ref 214).ch.get 4 = 1000#16 := by decide
/-- V-SNAP-1. -/
theorem test_snap : rspOf (cmd 0x1000000000000000000000000#100) = some 0x00000000000007D003E805DC0578064005DC#144 := by
  decide
/-- V-CLS-1. -/
theorem test_cls_1 : rspOf (cmd 0x208340384060E05DC05A9060F#100) = some 0x81F4005DC40FA005DC0183805DC8183D05A9#144 := by
  decide
/-- V-CLS-5. -/
theorem test_cls_5 : rspOf (cmd 0x205DC060F05A905DD060E05AA#100) = some 0x0177005DC8183C05DC416A605DD016A8060E#144 := by
  decide
/-- Section 2.4: 1003, 1004, 1500 and 65535. -/
theorem test_mapLin : [1003, 1004, 1500, 65535].map linMagnitude = [0, 1, 127, 255] := by decide
/-- Section 2.4: 0, 1498, 1499, 1502 and 1999. -/
theorem test_mapFold : [0, 1498, 1499, 1502, 1999].map foldMagnitude = [255, 1, 0, 1, 254] := by decide
/-- Section 2.4, MAP.SGN 1250. -/
theorem test_mapSgn : rspOf (cmd 0x60000000000000000000004E2#100) = some 0x00000000000000000000000000000000FF8F#144 := by
  decide
/-- Section 2.4: 1001, 1449, 1551, 1554 and 1999. -/
theorem test_mapSgn_edges : [1001, 1449, 1551, 1554, 1999].map sgnMagnitude = [-254, 0, 0, 2, 254] := by decide
/-- V-HYS-2, V-HYS-3, V-HYS-4, V-HYS-5, V-HYS-13. -/
theorem test_mapHys : hysMagnitude 1602 50 = 50 ∧ hysMagnitude 1604 50 = 53 ∧ hysMagnitude 1595 50 = 50 ∧
    hysMagnitude 1593 50 = 47 ∧ hysMagnitude 1000 300 = 255 := by decide
/-- V-HYS-8. -/
theorem test_mapHys_word : rspOf (cmd 0x70000000000000000FFFE05DC#100) = some 0x00000000000000000000000000000000FFFE#144 := by
  decide
/-- V-MIX-8. -/
theorem test_mix_8 : rspOf (cmd 0x80000000000000032006400C8#100) = some 0x0000000000000000000000B6006D002400FF#144 := by
  decide
/-- V-MIX-9. -/
theorem test_mix_9 : rspOf (cmd 0x800000000000000000064FED4#100) = some 0x00000000000000000000FF81FF01FF01FF81#144 := by
  decide
/-- V-ILL-2 (60_exceptions.md R91). -/
theorem test_illegal : step (cmd 0x3000000000000000000000000#100) = .next { cmd 0x3000000000000000000000000#100 with
    inputs := [], responses := [⟨true, 0#144⟩] } := rfl
/-- The first operation after reset is the one presented (log entry 1). -/
theorem test_withFetchWord : rspOf (State.reset.withFetchWord 100 0x50000000000000000000007D0) = some 0xFF#144 ∧
    (State.reset.withFetchWord 32 0x3E8).inputs = [.one (.edge 1000#32)] := by decide
/-- 60_exceptions.md R110. -/
theorem test_idle (s : State) (h : s.inputs = []) : step s = .next s := step_idle h
/-- 60_exceptions.md R104, V-MIX-9's wheels. -/
theorem test_drive : driveOf (-127) = .backward 127 ∧ driveOf 0 = .stop ∧ driveOf 255 = .forward 255 := by decide
/-- 30_encoding.md R56, R57. -/
theorem test_assemble : assembleLine "MAP.HYS 1500, -2 ; V-HYS-8".toList = .op (.mapHys 1500 (-2)) ∧
    assembleLine "MIX2 0xC6, 85".toList = .op (.mix 198 85 0) ∧ assembleLine "  ; note".toList = .blank ∧
    assembleLine "MAP.LIN 65536".toList = .refused ∧ assembleLine "SNAP 1".toList = .refused := by decide
/-- P5, steps 1 and 4, as a program. -/
theorem test_assembleProgram : assembleProgram ["EDGE 1000".toList, "".toList, "SNAP".toList] =
    some [.one (.edge 1000#32), .one (.command 0x1000000000000000000000000#100)] := by decide

/-! ## Witnesses: the hypotheses of each statement are met -/

theorem witness_ResetInputRestoresU1 : (at' (u1At 3 77) [.reset]).inputs = .reset :: [] := rfl

/-- A tick equal to `lt` is a pulse for every legal pair of parameters. -/
theorem pulse_zero (P : Params) : elapsedUs P (0 % P.tickPeriod) 0 < P.syncGapUs := by
  have := P.one_le_syncGapUs
  rw [Nat.zero_mod, elapsedUs_self]; omega

/-- The last tick of a period after tick 0 is a sync gap for every legal pair of parameters. -/
theorem gap_last (P : Params) : P.syncGapUs ≤ elapsedUs P ((P.tickPeriod - 1) % P.tickPeriod) 0 := by
  have h1 := P.two_le_tickPeriod
  have h2 := P.syncGapUs_le_span
  have h3 := elapsedUs_cast P (P.tickPeriod - 1) 0
  rw [Int.emod_eq_of_lt (by omega) (by omega)] at h3
  rw [Nat.mod_eq_of_lt (by omega)]
  omega

/-- The port word of that tick holds it. -/
theorem gap_word (P : Params) : (BitVec.ofNat 32 (P.tickPeriod - 1)).toNat = P.tickPeriod - 1 := by
  have h1 := P.two_le_tickPeriod
  have h2 := P.tickPeriod_le
  rw [BitVec.toNat_ofNat, Nat.mod_eq_of_lt (by omega)]

/-- The clauses of EdgeEventEffect: a pulse at slot 0, at slot 5 and while awaiting sync, and a sync gap. -/
theorem witness_EdgeEventEffect :
    (∀ i ∈ ([0, 5, 6] : List (Fin 7)), elapsedUs Config.params (0 % Config.params.tickPeriod) (u1At i 0).lt.toNat <
      Config.params.syncGapUs) ∧
    Config.params.syncGapUs ≤ elapsedUs Config.params ((Config.params.tickPeriod - 1) % Config.params.tickPeriod)
      (u1At 0 0).lt.toNat :=
  ⟨fun _ _ => pulse_zero _, gap_last _⟩

theorem witness_ElapsedTimeInMicroseconds : 65535 < ref.tickPeriod ∧ 0 < ref.tickPeriod ∧
    elapsedUs ref 65535 0 = 262140 ∧ elapsedUs ref 0 65535 = 4 := by decide

theorem witness_StoredWidthFits : (u1At 5 1000).idx.val < 6 ∧
    elapsedUs ref (1749 % ref.tickPeriod) (u1At 5 1000).lt.toNat < ref.syncGapUs := by decide

/-- A sync gap and one pulse: slot 0 falls under the first clause, slot 5 under the second. -/
theorem witness_Resynchronisation :
    let gap : EdgeWord := BitVec.ofNat 32 (Config.params.tickPeriod - 1)
    let s := at' (u1At 3 0) (edgePresentations [gap, gap])
    s.inputs = edgePresentations (gap :: [gap]) ++ [] ∧
    Config.params.syncGapUs ≤ elapsedUs Config.params (gap.toNat % Config.params.tickPeriod) s.u1.lt.toNat ∧
    AllPulses Config.params (edgeWidths Config.params (gap.toNat % Config.params.tickPeriod)
      ([gap].map BitVec.toNat)) := by
  refine ⟨rfl, ?_, ?_⟩
  · rw [gap_word]; exact gap_last _
  · intro el h
    simp only [edgeWidths, List.map_cons, List.map_nil, elapsedUs_self, List.mem_singleton] at h
    have := Config.params.one_le_syncGapUs
    omega

theorem witness_PulsesDroppedWhileAwaitingSync :
    (at' (u1At 6 0) (edgePresentations [0#32])).inputs = edgePresentations [0#32] ++ [] ∧ (u1At 6 0).idx.val = 6 ∧
    AllPulses Config.params (edgeWidths Config.params (u1At 6 0).lt.toNat ([0#32].map BitVec.toNat)) := by
  refine ⟨rfl, rfl, fun el h => ?_⟩
  have h' : el = elapsedUs Config.params (0 % Config.params.tickPeriod) 0 := by simpa [edgeWidths, u1At] using h
  rw [h']; exact pulse_zero _

/-- Six pulses, at both ends of the range; slot 5 falls under the first clause; with none, every slot under the second. -/
theorem witness_ConformingFrameDecoded : 2000 < ref.syncGapUs ∧ ConformingPulses [250, 500, 375, 375, 375, 500] ∧
    ConformingPulses [] ∧ ref.syncGapUs ≤ elapsedUs ref (2000 % ref.tickPeriod) (u1At 6 0).lt.toNat := by
  refine ⟨by decide, ⟨by decide, by decide⟩, ⟨by decide, by decide⟩, by decide⟩

theorem witness_SnapAnswersChannelTable : (0x1000000000000000000000001#100).extractLsb' 96 4 = 0x1#4 ∧
    (0x1000000000000000000000001#100).extractLsb' 0 96 ≠ 0#96 := by decide
theorem witness_MapLinResult : (0x40000000000000000000105DC#100).extractLsb' 96 4 = 0x4#4 ∧
    (0x40000000000000000000105DC#100).extractLsb' 16 80 ≠ 0#80 := by decide
theorem witness_MapFoldResult : (0x58000000000000000000000FF#100).extractLsb' 96 4 = 0x5#4 ∧
    (0x58000000000000000000000FF#100).extractLsb' 16 80 ≠ 0#80 := by decide
/-- Also one width for each of the three clauses, at the edges of the dead zone. -/
theorem witness_MapSgnResult : ((0x68000000000000000000005DC#100).extractLsb' 96 4 = 0x6#4 ∧
    (0x68000000000000000000005DC#100).extractLsb' 16 80 ≠ 0#80) ∧
    1550 < min (max 1551 1000) 2000 ∧ min (max 1449 1000) 2000 < 1450 ∧
    (1450 ≤ min (max 1450 1000) 2000 ∧ min (max 1550 1000) 2000 ≤ 1550) := by decide
theorem witness_MapHysResult : ((0x7000000000000000100320640#100).extractLsb' 96 4 = 0x7#4 ∧
    (0x7000000000000000100320640#100).extractLsb' 32 64 ≠ 0#64) ∧
    (-32768 : Int) ≤ -32768 ∧ (-32768 : Int) ≤ 32767 ∧ (-32768 : Int) ≤ 32767 ∧ (32767 : Int) ≤ 32767 := by decide
theorem witness_MixResult : (0x8000000000001000000000064#100).extractLsb' 96 4 = 0x8#4 ∧
    (0x8000000000001000000000064#100).extractLsb' 48 48 ≠ 0#48 := by decide
/-- The hypothesis inside `Rejected`. -/
theorem witness_Rejected : (cmd 0x1000000000000000000000001#100).inputs = .one (.command 0x1000000000000000000000001#100) :: [] := rfl
/-- Each of the four operations, at both clauses' boundaries. -/
theorem witness_MappersClampTheirOperand : ∃ op ∈ ([.mapLin, .mapFold, .mapSgn, fun v => .mapHys v 0] : List (Nat → Instr)),
    (op = .mapLin ∨ op = .mapFold ∨ op = .mapSgn ∨ (op = fun v => .mapHys v 0)) ∧ 999 ≤ 1000 ∧ 2001 ≥ 2000 :=
  ⟨.mapLin, by simp, .inl rfl, by decide, by decide⟩
theorem witness_SignedMapperShape : 500 ≤ 500 ∧ 1448 ≤ 1552 := by decide
theorem witness_MapperRangesAndShapes : 0 ≤ 65535 ∧ 500 ≤ 500 := by decide
/-- A move of exactly 3, and a difference of exactly 2. -/
theorem witness_HysteresisMovesByThree : (hysMagnitude 1604 50 ≠ 50 ∧ (hysMagnitude 1604 50 - 50).natAbs = 3) ∧
    ((foldMagnitude 1602 : Int) - 50).natAbs ≤ 2 := by decide
/-- Both sides of the scaling threshold, a wheel at the peak, a sum scaled to 0, opposite and ordered sums. -/
theorem witness_MixGuarantees : (mixSums 256 0 0).peak > 255 ∧ ((mixSums 256 0 0).get 0).natAbs = (mixSums 256 0 0).peak ∧
    ¬ (mixSums 255 0 0).peak > 255 ∧ ((mixSums 301 299 0).get 1).natAbs * 255 < (mixSums 301 299 0).peak ∧
    (mixSums 0 100 0).get 0 = -(mixSums 0 100 0).get 1 ∧ (mixSums 0 100 0).get 1 ≤ (mixSums 0 100 0).get 0 ∧
    0 ≤ (mixSums 0 100 0).get 0 ∧ (mixSums 0 100 0).get 1 ≤ 0 := by decide
theorem witness_MixWidths : (∀ x ∈ ([32767, -32768, -32768] : List Int), -32768 ≤ x ∧ x ≤ 32767) ∧
    (∀ x ∈ ([255, -255, -255] : List Int), -255 ≤ x ∧ x ≤ 255) ∧ (mixSums 32767 (-32768) (-32768)).get 1 = 98303 ∧
    (mixSums 255 (-255) (-255)).get 1 = 765 := by decide
theorem witness_IllegalWordsRejected : illegalWord 0x3000000000000000000000000#100 ∧
    ¬ illegalWord 0x7000000000000000000320640#100 := by
  simp only [illegalWord]; decide
theorem witness_StepRunsDecodedOperation :
    (cmd 0x1000000000000000000000000#100).inputs = .one (.command 0x1000000000000000000000000#100) :: [] ∧
    decode (.command 0x1000000000000000000000000#100) = .ok .snap := by decide
theorem witness_SimultaneousEitherOrder :
    (at' (u1At 1 0) [.both 5#32 0x1000000000000000000000000#100]).inputs =
      .both 5#32 0x1000000000000000000000000#100 :: [] := rfl
/-- A command that is not SNAP, and a slot other than the open one. -/
theorem witness_OrderMattersOnlyToSnap : decode (.command 0x3000000000000000000000000#100) ≠ .ok .snap ∧
    (0 : Fin 6).val ≠ (u1At 1 0).idx.val := by decide
theorem witness_OnlyEdgeAndResetWriteU1 : step (at' (u1At 1 0) [.reset]) = .next (at' Decoder.reset []) ∧
    (at' Decoder.reset []).u1 ≠ (at' (u1At 1 0) [.reset]).u1 := ⟨rfl, by decide⟩
theorem witness_OneResponsePerCommand :
    (cmd 0x1000000000000000000000000#100).inputs = .one (.command 0x1000000000000000000000000#100) :: [] ∧
    (at' (u1At 1 0) [.one (.edge 5#32)]).inputs = .one (.edge 5#32) :: [] := ⟨rfl, rfl⟩
/-- Two states that differ in `idx` and `lt` only, for SNAP. -/
theorem witness_CommandsSeeOnlyTheChannels : (∀ tick, Instr.snap ≠ .edge tick) ∧
    (Instr.snap = .snap → (at' (u1At 1 0) []).u1.ch = (at' (u1At 6 9) []).u1.ch) := ⟨nofun, fun _ => rfl⟩
theorem witness_StepKeepsInvariant :
    let s := at' ⟨⟨0, 0, 0, 0, 0, 0⟩, 0, 0⟩ [.one (.command 0#100)]
    let t : State := { s with inputs := [], responses := [⟨true, 0#144⟩] }
    s.Inv ∧ step s = .next t := by
  have h1 := Config.params.two_le_tickPeriod
  have h2 := Config.params.one_le_syncGapUs
  refine ⟨⟨⟨?_, fun i => .inr ?_⟩, nofun⟩, rfl⟩
  · show 0 < Config.params.tickPeriod; omega
  · have h : (Frame.get ⟨0, 0, 0, 0, 0, 0⟩ i : U16) = 0#16 := by fin_cases i <;> rfl
    show (Frame.get ⟨0, 0, 0, 0, 0, 0⟩ i).toNat % 4 = 0 ∧ (Frame.get ⟨0, 0, 0, 0, 0, 0⟩ i).toNat < Config.params.syncGapUs
    rw [h]; exact ⟨rfl, by show 0 < Config.params.syncGapUs; omega⟩
theorem witness_InvariantBoundsWidths : Decoder.Legal ref ⟨⟨2996, 2996, 2996, 2996, 2996, 2996⟩, 6, 65535⟩ := by
  refine ⟨by decide, fun i => .inr ?_⟩
  revert i; decide
theorem witness_DecodeOfEncode : (Instr.mix (-32768) 32767 0).WellFormed ∧ (Instr.cls 0 65535 0 0 0 65535).WellFormed := by
  decide
theorem witness_EncodeOfDecode : decode (.command 0x2FFFFFFFFFFFFFFFFFFFFFFFF#100) =
    .ok (.cls 65535 65535 65535 65535 65535 65535) := by decide
theorem witness_TableRowsAgreeWithDecoder : ∃ a ∈ commandRows, 0x400000000000000000000FFFF#100 &&& a.mask = a.pattern := by
  decide
theorem witness_AssemblerRefusesOutOfRange : lineOperands "EDGE 4294967296".toList = some [4294967296] ∧
    operationOf (lineName "EDGE 4294967296".toList) [4294967296] = some (.edge 4294967296) ∧
    ¬ (Instr.edge 4294967296).WellFormed ∧ assembleLine "EDGE 4294967296".toList = .refused ∧
    assembleLine "EDGE 4294967295".toList = .op (.edge 4294967295) := by decide
theorem witness_AssemblerRefusesOutOfRange_pseudo : lineOperands "MIX2 32768, -1".toList = some [32768, -1] ∧
    pseudoOf (lineName "MIX2 32768, -1".toList) [32768, -1] = some (.mix2 32768 (-1)) ∧
    ¬ (Pseudo.mix2 32768 (-1)).expand.WellFormed ∧ assembleLine "MIX2 32768, -1".toList = .refused ∧
    assembleLine "MIX2 32767, -1".toList = .op (.mix 32767 (-1) 0) := by decide
theorem witness_NoResponseBeforeCommand : ∀ x ∈ (at' (u1At 1 0) [.reset, .one (.edge 5#32)]).inputs,
    x = .reset ∨ ∃ tick, x = .one (.edge tick) := by
  intro x h
  simp only [at', List.mem_cons, List.not_mem_nil, or_false] at h
  rcases h with rfl | rfl
  exacts [.inl rfl, .inr ⟨_, rfl⟩]

end Sys2Proof.Tests
end

/-! The state after reset (spec 10_state.md R25 to R27). -/

namespace Sys2Proof.Machine

@[simp] theorem State.reset_u1 : State.reset.u1 = Decoder.reset := rfl

@[simp] theorem Decoder.reset_ch_get (i : Fin 6) : Decoder.reset.ch.get i = 1500#16 := by
  fin_cases i <;> rfl

@[simp] theorem Decoder.reset_idx : Decoder.reset.idx = 6 := rfl
@[simp] theorem Decoder.reset_lt : Decoder.reset.lt = 0#32 := rfl

/-- Settles O1: U1 after reset is `Decoder.reset`, read one register at a time. -/
theorem resetStateValues : Obligations.ResetStateValues := by
  unfold Obligations.ResetStateValues
  rw [State.reset_u1]
  refine ⟨Decoder.reset_ch_get, ?_, ?_⟩
  · rw [Decoder.reset_idx]; rfl
  · rw [Decoder.reset_lt]; rfl

end Sys2Proof.Machine

/-! The illegal command words (spec 30_encoding.md R54, 60_exceptions.md R91). -/

namespace Sys2Proof.Machine

/-- A format with reserved bits is illegal exactly when one of them is set (30_encoding.md R54). -/
theorem withReserved_illegal_iff {w : CmdWord} {lo : Nat} {i : Instr} (h : lo ≤ 96) :
    (∃ why, withReserved w lo i = .illegal why) ↔ 2 ^ lo ≤ w.toNat % 2 ^ 96 := by
  rw [← not_lt, ← reservedClear_iff w h]
  by_cases c : reservedClear w lo = true <;> simp [withReserved, c]

/-- The decoder rejects exactly the command words R54 calls illegal. -/
theorem decode_command_illegal_iff (w : CmdWord) :
    (∃ why, decode (.command w) = .illegal why) ↔ illegalWord w := by
  change (∃ why, decodeCommand w = .illegal why) ↔ illegalWord w
  unfold illegalWord
  rcases decodeCommand_cases w with ⟨hop, hd⟩ | ⟨hop, hd⟩ | ⟨hop, hd⟩ | ⟨hop, hd⟩ | ⟨hop, hd⟩ | ⟨hop, hd⟩ | ⟨hop, hd⟩ |
    ⟨hop, hd⟩ <;> rw [hd]
  case inr.inl => -- CLS has no reserved bit
    exact iff_of_false nofun (by omega)
  case inr.inr.inr.inr.inr.inr.inr => -- unassigned operation code
    exact iff_of_true ⟨_, rfl⟩ (by omega)
  all_goals
    rw [withReserved_illegal_iff (by decide)]
    omega

/-- A word that decodes to no operation is answered with IllegalCmd, and nothing else changes (60_exceptions.md R91). -/
theorem rejected_of_decode_illegal {w : CmdWord} {why : IllegalCmd} (hd : decode (.command w) = .illegal why) :
    Rejected w :=
  fun _ _ h => step_command_illegal h hd

/-- A command word that is not illegal decodes to a command operation, never to an edge event. -/
theorem decode_command_ok_of_legal {w : CmdWord} (h : ¬ illegalWord w) :
    ∃ i, decode (.command w) = .ok i ∧ ∀ tick, i ≠ .edge tick := by
  cases hd : decode (.command w) with
  | ok i => exact ⟨i, rfl, decodeCommand_ne_edge hd⟩
  | illegal why => exact absurd ((decode_command_illegal_iff w).mp ⟨why, hd⟩) h

/-- Settles O26: the words the decoder rejects are exactly the illegal ones, and a rejected word gets the error response. -/
theorem illegalWordsRejected : Obligations.IllegalWordsRejected := by
  unfold Obligations.IllegalWordsRejected
  refine ⟨fun w h => ?_, fun w h => decode_command_ok_of_legal h, fun w => ⟨w.toNat, rfl⟩⟩
  obtain ⟨why, hd⟩ := (decode_command_illegal_iff w).mpr h
  exact rejected_of_decode_illegal hd

end Sys2Proof.Machine

/-! The edge event and SNAP (spec 40_decoder.md R58, R63). -/

namespace Sys2Proof.Machine

/-- A pulse with a slot open: its width is stored there without loss, the slot advances, the others keep their values. -/
theorem edgeEvent_pulse_stored {P : Params} {tick : Nat} {d : Decoder}
    (hpulse : elapsedUs P (tick % P.tickPeriod) d.lt.toNat < P.syncGapUs) (hidx : d.idx.val < 6) :
    (d.edgeEvent P tick).idx.val = d.idx.val + 1 ∧
    ((d.edgeEvent P tick).ch.get ⟨d.idx.val, hidx⟩).toNat = elapsedUs P (tick % P.tickPeriod) d.lt.toNat ∧
    ∀ j : Fin 6, j.val ≠ d.idx.val → (d.edgeEvent P tick).ch.get j = d.ch.get j := by
  obtain ⟨hi, hch⟩ := edgeEvent_of_pulse hpulse
  refine ⟨by omega, ?_, fun j hj => ?_⟩
  · rw [hch, if_pos rfl, pulse_fits hpulse]
  · rw [hch, if_neg hj]

/-- A pulse while awaiting sync is dropped. -/
theorem edgeEvent_pulse_dropped {P : Params} {tick : Nat} {d : Decoder}
    (hpulse : elapsedUs P (tick % P.tickPeriod) d.lt.toNat < P.syncGapUs) (hidx : d.idx.val = 6) :
    (d.edgeEvent P tick).ch = d.ch ∧ (d.edgeEvent P tick).idx.val = 6 := by
  obtain ⟨hi, hch⟩ := edgeEvent_of_pulse hpulse
  refine ⟨Frame.ext_get fun j => ?_, by omega⟩
  have hj := j.isLt
  rw [hch, if_neg (by omega)]

/-- Settles O3: the edge event writes U1 alone, and there it is a pulse or a sync gap by the elapsed time. -/
theorem edgeEventEffect : Obligations.EdgeEventEffect := by
  unfold Obligations.EdgeEventEffect
  intro tick s P cur el
  have hel : el = (elapsedUs P cur s.u1.lt.toNat : Int) := (elapsedUs_cast P cur s.u1.lt.toNat).symm
  refine ⟨_, exec_edge tick s, rfl, rfl, rfl, edgeEvent_lt P tick s.u1, ?_⟩
  rw [hel]
  split
  · next hlt =>
    have hpulse : elapsedUs P cur s.u1.lt.toNat < P.syncGapUs := Int.ofNat_lt.mp hlt
    refine ⟨fun hidx => ?_, edgeEvent_pulse_dropped hpulse⟩
    obtain ⟨hi, hval, hkeep⟩ := edgeEvent_pulse_stored hpulse hidx
    exact ⟨hi, congrArg Nat.cast hval, hkeep⟩
  · next hge =>
    have hgap : P.syncGapUs ≤ elapsedUs P cur s.u1.lt.toNat := Int.ofNat_le.mp (not_lt.mp hge)
    obtain ⟨hi, hch⟩ := edgeEvent_of_gap hgap
    exact ⟨hch, congrArg Fin.val hi⟩

/-- A word whose format marks the bits `[95:lo]` 'must be 0' is rejected when one of them is 1 (30_encoding.md R54). -/
theorem rejected_of_reservedBits {w : CmdWord} {lo : Nat} {i : Instr} (hd : decodeCommand w = withReserved w lo i)
    (hbits : w.extractLsb' lo (96 - lo) ≠ 0) : Rejected w := by
  have hset : reservedClear w lo = false := by simpa only [reservedClear, beq_eq_false_iff_ne] using hbits
  have hill : withReserved w lo i = .illegal (.reservedBits (opField w)) := by simp [withReserved, hset]
  exact rejected_of_decode_illegal (hd.trans hill)

/-- A word with op 0x1 is SNAP, with all of `arg` reserved (30_encoding.md R45). -/
theorem decodeCommand_snap {w : CmdWord} (hop : opField w = 0x1#4) : decodeCommand w = withReserved w 0 .snap := by
  simp only [decodeCommand, hop]

/-- Settles O11: SNAP's one response is the frame result of the channel table, and a set bit of `arg` is rejected. -/
theorem snapAnswersChannelTable : Obligations.SnapAnswersChannelTable := by
  unfold Obligations.SnapAnswersChannelTable
  refine ⟨fun s => ?_, fun w hop harg => rejected_of_reservedBits (decodeCommand_snap hop) harg⟩
  exact ⟨frameResult s.u1.ch, exec_snap s, frameResult_slice s.u1.ch, frameResult_above s.u1.ch⟩

end Sys2Proof.Machine

/-! The classification result on the response port (spec 30_encoding.md R52, 41_classifier.md R66 to R70). -/

namespace Sys2Proof.Machine

/-- The fields of a slot of a classification result: the width in bits 15:0, the tag in bits 17:16 (30_encoding.md R52). -/
theorem classificationResult_fields {q : Classification} {k : Nat} {b : Bucket} (h : q.slots[k]? = some b) :
    (classificationResult q).extractLsb' (18 * k) 16 = u16 b.width ∧
    (classificationResult q).extractLsb' (18 * k + 16) 2 = b.tag := by
  have hslot : (classificationResult q).extractLsb' (18 * k + 16) 2 ++
      (classificationResult q).extractLsb' (18 * k) 16 = b.tag ++ u16 b.width :=
    (BitVec.extractLsb'_append_extractLsb'_eq_extractLsb' rfl).trans (classificationResult_slice q h)
  constructor
  · simpa only [BitVec.extractLsb'_append_eq_right] using congrArg (BitVec.extractLsb' 0 16) hslot
  · simpa only [BitVec.extractLsb'_append_eq_left] using congrArg (BitVec.extractLsb' 16 2) hslot

/-- A slot that holds channel `c`'s bucket carries the clamped width and the tag of the strict comparison (R68, R69). -/
theorem classificationResult_of_bucket {q : Classification} {k : Nat} {c : Fin 6} {v : Nat}
    (h : q.slots[k]? = some (bucket c v)) :
    ((classificationResult q).extractLsb' (18 * k) 16).toNat = clamp v ∧
    (classificationResult q).extractLsb' (18 * k + 16) 2 =
      if clamp v > clsHi c then 2#2 else if clamp v < clsLo c then 1#2 else 0#2 := by
  obtain ⟨hwidth, htag⟩ := classificationResult_fields h
  obtain ⟨-, hle⟩ := clamp_bounds v
  refine ⟨?_, htag.trans (bucket_tag c v)⟩
  rw [hwidth, bucket_width, u16_toNat (by omega)]

/-- The slot of each channel: Right, Left, Vra, Vrb, vertical before horizontal (R66, R70; 30_encoding.md R52). -/
theorem classify_channelSlots (v : Fin 6 → Nat) :
    ∀ ck ∈ ([(0, 1), (1, 0), (2, 2), (3, 3), (4, 5), (5, 7)] : List (Fin 6 × Nat)),
      (classify (v 0) (v 1) (v 2) (v 3) (v 4) (v 5)).slots[ck.2]? = some (bucket ck.1 (v ck.1)) := by
  simp [classify, Classification.slots]

/-- The vertical slots of Vra and Vrb, which no channel feeds, hold the default (R67). -/
theorem classify_unfedSlots (v0 v1 v2 v3 v4 v5 : Nat) :
    ∀ k ∈ ([4, 6] : List Nat), (classify v0 v1 v2 v3 v4 v5).slots[k]? = some unfedBucket := by
  simp [classify, Classification.slots]

/-- Settles O12: each channel's slot holds its bucket and the other two the default, so the response carries their fields. -/
theorem clsAnswersBuckets : Obligations.ClsAnswersBuckets := by
  unfold Obligations.ClsAnswersBuckets
  intro v s
  refine ⟨_, exec_cls _ _ _ _ _ _ s, fun ck hck => ?_, fun k hk => ?_⟩
  · exact classificationResult_of_bucket (classify_channelSlots v ck hck)
  · exact classificationResult_slice _ (classify_unfedSlots _ _ _ _ _ _ k hk)

end Sys2Proof.Machine

/-! The mapping operations (spec 42_mapper.md R73 to R79). -/

namespace Sys2Proof.Machine

/-- A word with op 0x4 is MAP.LIN, with the bits above `v` reserved (30_encoding.md R47). -/
theorem decodeCommand_mapLin {w : CmdWord} (hop : opField w = 0x4#4) :
    decodeCommand w = withReserved w 16 (.mapLin (argU16 w 0)) := by
  simp only [decodeCommand, hop]

/-- A word with op 0x5 is MAP.FOLD, with the bits above `v` reserved (30_encoding.md R47). -/
theorem decodeCommand_mapFold {w : CmdWord} (hop : opField w = 0x5#4) :
    decodeCommand w = withReserved w 16 (.mapFold (argU16 w 0)) := by
  simp only [decodeCommand, hop]

/-- A word with op 0x6 is MAP.SGN, with the bits above `v` reserved (30_encoding.md R47). -/
theorem decodeCommand_mapSgn {w : CmdWord} (hop : opField w = 0x6#4) :
    decodeCommand w = withReserved w 16 (.mapSgn (argU16 w 0)) := by
  simp only [decodeCommand, hop]

/-- A word with op 0x7 is MAP.HYS, with the bits above `v` and `p` reserved (30_encoding.md R48). -/
theorem decodeCommand_mapHys {w : CmdWord} (hop : opField w = 0x7#4) :
    decodeCommand w = withReserved w 32 (.mapHys (argU16 w 0) (argI16 w 1)) := by
  simp only [decodeCommand, hop]

/-- The low field of a scalar result holds every `i16` value without loss (30_encoding.md R53). -/
theorem scalarResult_low_toInt {y : Int} (hlo : -32768 ≤ y) (hhi : y ≤ 32767) :
    ((scalarResult y).extractLsb' 0 16).toInt = y := by
  rw [scalarResult_low, ← s16_eq_toInt, s16_i16 hlo hhi]

/-- The linear magnitude is a floor, as the two inequalities of the quotient (R75). -/
theorem linMagnitude_floor (v : Nat) :
    linMagnitude v * 1000 ≤ (clamp v - 1000) * 255 ∧ (clamp v - 1000) * 255 < (linMagnitude v + 1) * 1000 :=
  ⟨Nat.div_mul_le_self _ _, Nat.lt_mul_of_div_lt (Nat.lt_succ_self _) (by decide)⟩

/-- The folded magnitude is a floor, as the two inequalities of the quotient (R76). -/
theorem foldMagnitude_floor (v : Nat) :
    foldMagnitude v * 500 ≤ ((clamp v : Int) - 1500).natAbs * 255 ∧
    ((clamp v : Int) - 1500).natAbs * 255 < (foldMagnitude v + 1) * 500 := by
  rw [foldMagnitude_eq]
  exact ⟨Nat.div_mul_le_self _ _, Nat.lt_mul_of_div_lt (Nat.lt_succ_self _) (by decide)⟩

/-- Above the dead zone the signed magnitude is the floor of the scaled distance from it (R77). -/
theorem sgnMagnitude_of_above {v : Nat} (h : 1550 < clamp v) :
    sgnMagnitude v = ((clamp v : Int) - 1550) * 255 / 450 := by
  rw [sgnMagnitude, if_pos h]
  simp only [dzHi, outMax]
  omega

/-- Below the dead zone the sign is applied to the floor of the scaled distance from it (R77, R74). -/
theorem sgnMagnitude_of_below {v : Nat} (h : clamp v < 1450) :
    sgnMagnitude v = -((1450 - (clamp v : Int)) * 255 / 450) := by
  rw [sgnMagnitude, if_neg (by simp only [dzHi]; omega), if_pos h]
  simp only [dzLo, outMax]
  omega

/-- Both edges of the dead zone belong to it (R77). -/
theorem sgnMagnitude_of_deadZone {v : Nat} (hlo : 1450 ≤ clamp v) (hhi : clamp v ≤ 1550) : sgnMagnitude v = 0 := by
  rw [sgnMagnitude, if_neg (not_lt.mpr hhi), if_neg (not_lt.mpr hlo)]

/-- With a previous output that an `i16` holds, MAP.HYS answers a value that an `i16` holds (R79). -/
theorem hysMagnitude_bounds (v : Nat) {p : Int} (hlo : -32768 ≤ p) (hhi : p ≤ 32767) :
    -32768 ≤ hysMagnitude v p ∧ hysMagnitude v p ≤ 32767 := by
  have hfold := foldMagnitude_le v
  rw [hysMagnitude_eq]
  split <;> omega

/-- Settles O13: the response word is the linear magnitude, a floor, and a set reserved bit is rejected. -/
theorem mapLinResult : Obligations.MapLinResult := by
  unfold Obligations.MapLinResult
  refine ⟨fun v s => ?_, fun w hop hbits => rejected_of_reservedBits (decodeCommand_mapLin hop) hbits⟩
  have hle := linMagnitude_le v
  refine ⟨_, exec_mapLin v s, ?_⟩
  rw [scalarResult_toNat (by omega)]
  exact linMagnitude_floor v

/-- Settles O14: the response word is the folded magnitude, a floor, and a set reserved bit is rejected. -/
theorem mapFoldResult : Obligations.MapFoldResult := by
  unfold Obligations.MapFoldResult
  refine ⟨fun v s => ?_, fun w hop hbits => rejected_of_reservedBits (decodeCommand_mapFold hop) hbits⟩
  have hle := foldMagnitude_le v
  refine ⟨_, exec_mapFold v s, ?_⟩
  rw [scalarResult_toNat (by omega)]
  exact foldMagnitude_floor v

/-- Settles O15: the low field is the signed magnitude, taken in each of its three ranges. -/
theorem mapSgnResult : Obligations.MapSgnResult := by
  unfold Obligations.MapSgnResult
  refine ⟨fun v s => ?_, fun w hop hbits => rejected_of_reservedBits (decodeCommand_mapSgn hop) hbits⟩
  obtain ⟨hlo, hhi⟩ := sgnMagnitude_bounds v
  refine ⟨_, exec_mapSgn v s, scalarResult_above _, ?_⟩
  rw [scalarResult_low_toInt (by omega) (by omega), ← clamp_eq]
  refine ⟨fun habove => ?_, fun hbelow => ?_, fun ⟨hge, hle⟩ => ?_⟩
  · rw [sgnMagnitude_of_above (by omega)]
    omega
  · rw [sgnMagnitude_of_below (by omega)]
    omega
  · exact sgnMagnitude_of_deadZone (by omega) (by omega)

/-- Settles O16: the low field is the previous output inside the band and the folded magnitude outside it. -/
theorem mapHysResult : Obligations.MapHysResult := by
  unfold Obligations.MapHysResult
  refine ⟨fun v p s hp1 hp2 => ?_, fun w hop hbits => rejected_of_reservedBits (decodeCommand_mapHys hop) hbits⟩
  obtain ⟨hlo, hhi⟩ := hysMagnitude_bounds v hp1 hp2
  refine ⟨_, exec_mapHys v p s, scalarResult_above _, ?_⟩
  rw [scalarResult_low_toInt hlo hhi, hysMagnitude_eq, foldMagnitude_eq]
  rfl

/-- A mapping operation sees its width through `clamp` alone (R73). -/
theorem exec_mapping_congr {p : Int} {op : Nat → Instr}
    (hop : op = .mapLin ∨ op = .mapFold ∨ op = .mapSgn ∨ (op = fun v => .mapHys v p))
    {v w : Nat} (h : clamp v = clamp w) (s : State) : exec (op v) s = exec (op w) s := by
  have hfold : foldMagnitude v = foldMagnitude w := by simp only [foldMagnitude, h]
  rcases hop with rfl | rfl | rfl | rfl
  · simp only [exec_mapLin, linMagnitude, h]
  · simp only [exec_mapFold, hfold]
  · simp only [exec_mapSgn, sgnMagnitude, h]
  · simp only [exec_mapHys, hysMagnitude, hfold]

/-- Settles O17: a width at or beyond an end of the range clamps to what that end clamps to. -/
theorem mappersClampTheirOperand : Obligations.MappersClampTheirOperand := by
  unfold Obligations.MappersClampTheirOperand
  intro p s op hop
  refine ⟨fun v hv => exec_mapping_congr hop ?_ s, fun v hv => exec_mapping_congr hop ?_ s⟩
  · simp only [clamp_eq]; omega
  · simp only [clamp_eq]; omega

end Sys2Proof.Machine

/-! The mix operation (spec 43_mixer.md R83 to R86). -/

namespace Sys2Proof.Machine

/-- A word with op 0x8 is MIX, with the bits above `r` reserved (30_encoding.md R49). -/
theorem decodeCommand_mix {w : CmdWord} (hop : opField w = 0x8#4) :
    decodeCommand w = withReserved w 48 (.mix (argI16 w 0) (argI16 w 1) (argI16 w 2)) := by
  simp only [decodeCommand, hop]

/-- Every output of the mixer lies in the WheelCommand range: scaled when the peak exceeds 255, else as it is (R84). -/
theorem normalise_get_natAbs_le (w : Wheels) (k : Fin 4) : ((normalise w).get k).natAbs ≤ 255 := by
  have hpeak := natAbs_le_peak w k
  rw [normalise_get]
  split
  · rw [tdiv_natAbs, Int.natAbs_mul]
    exact Nat.div_le_of_le_mul (Nat.mul_le_mul_right 255 hpeak)
  · omega

/-- Field `k` of the response to MIX holds wheel `k`'s output without loss (30_encoding.md R53). -/
theorem wheelsResult_normalise_toInt (w : Wheels) (k : Fin 4) :
    ((wheelsResult (normalise w)).extractLsb' (16 * k.val) 16).toInt = (normalise w).get k := by
  have hle := normalise_get_natAbs_le w k
  rw [wheelsResult_slice, ← s16_eq_toInt, s16_i16 (by omega) (by omega)]

/-- Each field of the response to MIX is its wheel's sum, scaled exactly when the peak exceeds 255 (R84, R85). -/
theorem wheelsResult_normalise_field (w : Wheels) (k : Fin 4) :
    ((wheelsResult (normalise w)).extractLsb' (16 * k.val) 16).toInt =
      if w.peak > 255 then Int.tdiv (w.get k * 255) w.peak else w.get k := by
  rw [wheelsResult_normalise_toInt, normalise_get, tdiv_eq]

/-- The four sums, by the number of their wheel (R83). -/
theorem mixSums_get (f s r : Int) :
    ∀ kx ∈ ([(0, f + s + r), (1, f - s - r), (2, f - s + r), (3, f + s - r)] : List (Nat × Int)),
      ∃ k : Fin 4, k.val = kx.1 ∧ (mixSums f s r).get k = kx.2 := by
  simp only [List.forall_mem_cons]
  exact ⟨⟨0, rfl, rfl⟩, ⟨1, rfl, rfl⟩, ⟨2, rfl, rfl⟩, ⟨3, rfl, rfl⟩, nofun⟩

/-- Settles O21: each response field is its wheel's normalised sum, and a set reserved bit is rejected. -/
theorem mixResult : Obligations.MixResult := by
  unfold Obligations.MixResult
  refine ⟨fun f s r σ => ?_, fun w hop hbits => rejected_of_reservedBits (decodeCommand_mix hop) hbits⟩
  refine ⟨_, exec_mix f s r σ, wheelsResult_above _, fun kx hkx => ?_⟩
  obtain ⟨k, hk, hx⟩ := mixSums_get f s r kx hkx
  rw [← hk, ← hx]
  exact wheelsResult_normalise_field (mixSums f s r) k

end Sys2Proof.Machine

/-! The invariants of the state (spec 10_state.md R20, 30_encoding.md R43). -/

namespace Sys2Proof.Machine

/-- U1 after reset is within R20 for every legal pair of parameters. -/
theorem Decoder.reset_legal (P : Params) : Decoder.reset.Legal P :=
  ⟨P.tickPeriod_pos, fun i => .inl (Decoder.reset_ch_get i)⟩

/-- A pulse's width is one that R20 (c) allows in a slot. -/
theorem legalWidth_pulse {P : Params} {cur lt : Nat} (hpulse : elapsedUs P cur lt < P.syncGapUs) :
    legalWidth P (u16 (elapsedUs P cur lt)) := by
  have hmod := elapsedUs_mod_four P cur lt
  right
  rw [pulse_fits hpulse]
  exact ⟨hmod, hpulse⟩

/-- An edge event keeps U1 within R20: a pulse stores a legal width or is dropped, a sync gap stores nothing. -/
theorem edgeEvent_keeps_legal {P : Params} {d : Decoder} (hd : d.Legal P) (tick : Nat) :
    (d.edgeEvent P tick).Legal P := by
  obtain ⟨-, hch⟩ := hd
  refine ⟨by rw [edgeEvent_lt]; exact P.cur_lt tick, fun i => ?_⟩
  by_cases hpulse : elapsedUs P (tick % P.tickPeriod) d.lt.toNat < P.syncGapUs
  · obtain ⟨-, hget⟩ := edgeEvent_of_pulse hpulse
    rw [hget]
    split
    · exact legalWidth_pulse hpulse
    · exact hch i
  · obtain ⟨-, hkeep⟩ := edgeEvent_of_gap (not_lt.mp hpulse)
    rw [hkeep]
    exact hch i

/-- Settles O35: each of the four things a step can do keeps U1 legal and error responses zero. -/
theorem stepKeepsInvariant : Obligations.StepKeepsInvariant := by
  unfold Obligations.StepKeepsInvariant
  intro s t ⟨hlegal, herr⟩ hstep
  obtain ⟨t', ht', hcase⟩ := step_cases s
  obtain rfl : t' = t := by simpa [hstep] using ht'.symm
  unfold State.Inv
  rcases hcase with ⟨hu1, hr⟩ | ⟨hu1, hr⟩ | ⟨tick, hu1, hr⟩ | ⟨hu1, r, hr, hzero⟩ <;> rw [hu1, hr]
  · exact ⟨hlegal, herr⟩
  · exact ⟨Decoder.reset_legal _, herr⟩
  · exact ⟨edgeEvent_keeps_legal hlegal tick, herr⟩
  · exact ⟨hlegal, List.forall_mem_append.mpr ⟨herr, List.forall_mem_singleton.mpr hzero⟩⟩

/-- Settles O36: U1 after reset is legal, and no response has been presented. -/
theorem resetMeetsInvariant : Obligations.ResetMeetsInvariant := by
  unfold Obligations.ResetMeetsInvariant
  exact ⟨⟨Decoder.reset_legal _, nofun⟩, Decoder.reset_legal⟩

/-- Settles O37: 1500 is such a width, and below a threshold of at most 65536 the largest multiple of 4 is 65532. -/
theorem invariantBoundsWidths : Obligations.InvariantBoundsWidths := by
  unfold Obligations.InvariantBoundsWidths
  rintro P d i ⟨-, hch⟩
  have hgap := P.syncGapUs_le
  rcases hch i with hreset | ⟨hmod, hlt⟩
  · rw [hreset]; decide
  · omega

end Sys2Proof.Machine

/-! The encoder and the decoder (spec 30_encoding.md R41 to R50). -/

namespace Sys2Proof.Machine

/-- A word with op 0x2 is CLS, with no reserved bit (30_encoding.md R46). -/
theorem decodeCommand_cls {w : CmdWord} (hop : opField w = 0x2#4) : decodeCommand w =
    .ok (.cls (argU16 w 0) (argU16 w 1) (argU16 w 2) (argU16 w 3) (argU16 w 4) (argU16 w 5)) := by
  simp only [decodeCommand, hop]

/-- The word of a format with reserved bits decodes to the operation the format reads from it. -/
theorem decodeCommand_commandWord {op lo : Nat} {args : List U16} {fmt : CmdWord → Instr}
    (hfmt : ∀ {w : CmdWord}, opField w = BitVec.ofNat 4 op → decodeCommand w = withReserved w lo (fmt w))
    (ho : op < 16) (ha : 16 * args.length ≤ lo) (hlo : lo ≤ 96) :
    decodeCommand (commandWord op args) = .ok (fmt (commandWord op args)) := by
  rw [hfmt (opField_commandWord ho (by omega)), withReserved, if_pos (reservedClear_commandWord ho ha hlo)]

section
variable {op : Nat} {args : List U16} (ho : op < 16) (ha : args.length ≤ 6)
include ho ha

/-- An unsigned operand in its range is read back from its field (30_encoding.md R50). -/
theorem argU16_commandWord {k v : Nat} (hk : args[k]? = some (u16 v)) (hv : u16InRange v = true) :
    argU16 (commandWord op args) k = v := by
  obtain ⟨hlt, -⟩ := List.getElem?_eq_some_iff.mp hk
  have hv' : v ≤ 65535 := of_decide_eq_true hv
  rw [argU16, argField_commandWord ho ha (by omega), hk, Option.getD_some, u16_toNat (by omega)]

/-- A signed operand in its range is read back from its field (30_encoding.md R50). -/
theorem argI16_commandWord {k : Nat} {x : Int} (hk : args[k]? = some (i16 x)) (hx : i16InRange x = true) :
    argI16 (commandWord op args) k = x := by
  obtain ⟨hlt, -⟩ := List.getElem?_eq_some_iff.mp hk
  obtain ⟨hlo, hhi⟩ : -32768 ≤ x ∧ x ≤ 32767 := by simpa [i16InRange] using hx
  rw [argI16, argField_commandWord ho ha (by omega), hk, Option.getD_some, s16_i16 hlo hhi]

end

/-- Settles O38: the operation code selects the format, whose fields give the operands back and whose reserved bits
are 0. -/
theorem decodeOfEncode : Obligations.DecodeOfEncode := by
  unfold Obligations.DecodeOfEncode
  intro i hwf
  cases i with
  | edge tick =>
    have htick : tick < 4294967296 := of_decide_eq_true hwf
    simp [encode, decode, Nat.mod_eq_of_lt htick]
  | snap => exact decodeCommand_commandWord (args := []) decodeCommand_snap (by decide) (by decide) (by decide)
  | cls v0 v1 v2 v3 v4 v5 =>
    simp only [Instr.WellFormed, Instr.wellFormed, Bool.and_eq_true] at hwf
    obtain ⟨⟨⟨⟨⟨h0, h1⟩, h2⟩, h3⟩, h4⟩, h5⟩ := hwf
    refine (decodeCommand_cls (opField_commandWord (by decide) (by simp))).trans ?_
    rw [argU16_commandWord (by decide) (by simp) rfl h0, argU16_commandWord (by decide) (by simp) rfl h1,
      argU16_commandWord (by decide) (by simp) rfl h2, argU16_commandWord (by decide) (by simp) rfl h3,
      argU16_commandWord (by decide) (by simp) rfl h4, argU16_commandWord (by decide) (by simp) rfl h5]
  | mapLin v =>
    refine (decodeCommand_commandWord decodeCommand_mapLin (by decide) (by simp) (by decide)).trans ?_
    rw [argU16_commandWord (by decide) (by simp) rfl hwf]
  | mapFold v =>
    refine (decodeCommand_commandWord decodeCommand_mapFold (by decide) (by simp) (by decide)).trans ?_
    rw [argU16_commandWord (by decide) (by simp) rfl hwf]
  | mapSgn v =>
    refine (decodeCommand_commandWord decodeCommand_mapSgn (by decide) (by simp) (by decide)).trans ?_
    rw [argU16_commandWord (by decide) (by simp) rfl hwf]
  | mapHys v p =>
    simp only [Instr.WellFormed, Instr.wellFormed, Bool.and_eq_true] at hwf
    obtain ⟨hv, hp⟩ := hwf
    refine (decodeCommand_commandWord decodeCommand_mapHys (by decide) (by simp) (by decide)).trans ?_
    rw [argU16_commandWord (by decide) (by simp) rfl hv, argI16_commandWord (by decide) (by simp) rfl hp]
  | mix f s r =>
    simp only [Instr.WellFormed, Instr.wellFormed, Bool.and_eq_true] at hwf
    obtain ⟨⟨hf, hs⟩, hr⟩ := hwf
    refine (decodeCommand_commandWord decodeCommand_mix (by decide) (by simp) (by decide)).trans ?_
    rw [argI16_commandWord (by decide) (by simp) rfl hf, argI16_commandWord (by decide) (by simp) rfl hs,
      argI16_commandWord (by decide) (by simp) rfl hr]

end Sys2Proof.Machine

/-! Encoding what was decoded, and the opcode table (spec 30_encoding.md R41 to R50). -/

namespace Sys2Proof.Machine

theorem argField_toNat (w : CmdWord) (k : Nat) : (argField w k).toNat = w.toNat / 2 ^ (16 * k) % 2 ^ 16 := by
  rw [argField, BitVec.extractLsb'_toNat, Nat.shiftRight_eq_div_pow]

/-- The operand fields `k` to `k + n - 1`, packed, are the bits of the word they were cut from (20_memory.md R30). -/
theorem pack_argFields (w : CmdWord) (n k : Nat) :
    pack 16 ((List.range' k n).map (argField w)) = w.toNat / 2 ^ (16 * k) % 2 ^ (16 * n) := by
  induction n generalizing k with
  | zero => simp [pack, Nat.mod_one]
  | succ n ih =>
    have hstep : w.toNat / 2 ^ (16 * (k + 1)) = w.toNat / 2 ^ (16 * k) / 2 ^ 16 := by
      rw [Nat.div_div_eq_div_mul, ← pow_add, Nat.mul_succ]
    rw [List.range'_succ, List.map_cons, pack, ih, argField_toNat, hstep, Nat.mul_succ, Nat.add_comm (16 * n), pow_add,
      Nat.mod_mul]

/-- A word is rebuilt from its operation code and its first `n` operand fields when the bits above them are 0. -/
theorem commandWord_argFields {w : CmdWord} {op : Nat} (n : Nat) (hn : n ≤ 6) (hop : w.toNat / 2 ^ 96 = op)
    (harg : w.toNat % 2 ^ 96 < 2 ^ (16 * n)) : commandWord op ((List.range' 0 n).map (argField w)) = w := by
  have hw := w.isLt
  have hpow : (2 : Nat) ^ 96 = 2 ^ (16 * n) * 2 ^ (96 - 16 * n) := by rw [← pow_add]; congr 1; omega
  have hfields : w.toNat % 2 ^ (16 * n) = w.toNat % 2 ^ 96 := by
    rw [← Nat.mod_eq_of_lt harg, hpow, Nat.mod_mul_right_mod]
  apply BitVec.eq_of_toNat_eq
  rw [commandWord_toNat (by omega) (by simpa using hn), pack_argFields, Nat.mul_zero, Nat.pow_zero, Nat.div_one,
    hfields]
  omega

/-- An unsigned operand read from a field is in its range, and its encoding is the field (30_encoding.md R50). -/
theorem argU16_inRange (w : CmdWord) (k : Nat) : u16InRange (argU16 w k) = true :=
  decide_eq_true (Nat.le_of_lt_succ (argField w k).isLt)

@[simp] theorem u16_argU16 (w : CmdWord) (k : Nat) : u16 (argU16 w k) = argField w k :=
  (BitVec.ofNat_toNat 16 _).trans (BitVec.setWidth_eq _)

/-- A signed operand read from a field is in its range, and its encoding is the field (30_encoding.md R50). -/
theorem argI16_inRange (w : CmdWord) (k : Nat) : i16InRange (argI16 w k) = true := by
  obtain ⟨hlo, hhi⟩ := s16_bounds (argField w k)
  simp only [i16InRange, argI16, hlo, hhi, decide_true, Bool.and_self]

@[simp] theorem i16_argI16 (w : CmdWord) (k : Nat) : i16 (argI16 w k) = argField w k := i16_s16 _

/-- The opcode-table row of a format with operation code `op` and `n` operand fields, the bits between them being 0. -/
def formatRow (mnemonic : String) (op n : Nat) : OpcodeRow where
  mnemonic := mnemonic
  mask := BitVec.allOnes 100 <<< (16 * n)
  pattern := BitVec.ofNat 100 (op * 2 ^ 96)

/-- The command rows of the opcode table as formats (30_encoding.md R44 to R49). -/
theorem commandRows_eq : commandRows = [formatRow "SNAP" 1 0, formatRow "CLS" 2 6, formatRow "MAP.LIN" 4 1,
    formatRow "MAP.FOLD" 5 1, formatRow "MAP.SGN" 6 1, formatRow "MAP.HYS" 7 2, formatRow "MIX" 8 3] := by decide

/-- A word matches a format's row exactly when it has the operation code and no bit above the operand fields. -/
theorem formatRow_matches_iff (w : CmdWord) (mnemonic : String) {op n : Nat} (ho : op < 16) (hn : n ≤ 6) :
    w &&& (formatRow mnemonic op n).mask = (formatRow mnemonic op n).pattern ↔
      w.toNat / 2 ^ 96 = op ∧ w.toNat % 2 ^ 96 < 2 ^ (16 * n) := by
  have hw := w.isLt
  rw [formatRow, ← BitVec.shiftLeft_ushiftRight, ← BitVec.toNat_inj, BitVec.toNat_shiftLeft, BitVec.toNat_ushiftRight,
    BitVec.toNat_ofNat, Nat.shiftRight_eq_div_pow, Nat.shiftLeft_eq]
  interval_cases n <;> omega

/-- A word that decodes has the operation code and the clear bits of its operation's row, and the operation holds the
operand fields, each in its range (30_encoding.md R44 to R50). -/
theorem decodeCommand_ok_format {w : CmdWord} {i : Instr} (h : decodeCommand w = .ok i) :
    ∃ op n, n ≤ 6 ∧ w.toNat / 2 ^ 96 = op ∧ w.toNat % 2 ^ 96 < 2 ^ (16 * n) ∧
      formatRow i.mnemonic op n ∈ commandRows ∧ i.WellFormed ∧
      encode i = .command (commandWord op ((List.range' 0 n).map (argField w))) := by
  rw [commandRows_eq]
  rcases decodeCommand_cases w with ⟨hop, hd⟩ | ⟨hop, hd⟩ | ⟨hop, hd⟩ | ⟨hop, hd⟩ | ⟨hop, hd⟩ | ⟨hop, hd⟩ | ⟨hop, hd⟩ |
    ⟨-, hd⟩ <;> rw [hd] at h
  case inr.inl => -- CLS has no reserved bit
    obtain rfl := Decoded.ok.inj h
    have harg := Nat.mod_lt w.toNat (Nat.two_pow_pos 96)
    exact ⟨2, 6, by decide, hop, harg, by simp [Instr.mnemonic],
      by simp [Instr.WellFormed, Instr.wellFormed, argU16_inRange], by simp [encode, List.range']⟩
  case inr.inr.inr.inr.inr.inr.inr => cases h -- unassigned operation code
  all_goals obtain ⟨rfl, harg⟩ := (withReserved_ok (by decide)).mp h
  · exact ⟨1, 0, by decide, hop, harg, by simp [Instr.mnemonic], rfl, rfl⟩
  · exact ⟨4, 1, by decide, hop, harg, by simp [Instr.mnemonic], argU16_inRange w 0, by simp [encode, List.range']⟩
  · exact ⟨5, 1, by decide, hop, harg, by simp [Instr.mnemonic], argU16_inRange w 0, by simp [encode, List.range']⟩
  · exact ⟨6, 1, by decide, hop, harg, by simp [Instr.mnemonic], argU16_inRange w 0, by simp [encode, List.range']⟩
  · exact ⟨7, 2, by decide, hop, harg, by simp [Instr.mnemonic],
      by simp [Instr.WellFormed, Instr.wellFormed, argU16_inRange, argI16_inRange], by simp [encode, List.range']⟩
  · exact ⟨8, 3, by decide, hop, harg, by simp [Instr.mnemonic],
      by simp [Instr.WellFormed, Instr.wellFormed, argI16_inRange], by simp [encode, List.range']⟩

/-- Settles O39: the fields a format reads are in range, and with the bits above them 0 they make up the word again. -/
theorem encodeOfDecode : Obligations.EncodeOfDecode := by
  unfold Obligations.EncodeOfDecode
  intro p i hd
  cases p with
  | edge w =>
    obtain rfl := Decoded.ok.inj hd
    exact ⟨decide_eq_true w.isLt, congrArg PortWord.edge ((BitVec.ofNat_toNat 32 w).trans (BitVec.setWidth_eq w))⟩
  | command w =>
    obtain ⟨op, n, hn, hop, harg, -, hwf, hencode⟩ := decodeCommand_ok_format hd
    exact ⟨hwf, by rw [hencode, commandWord_argFields n hn hop harg]⟩

/-- A word that matches a row carries the row's operation code, since every row's mask covers that field. -/
theorem opField_of_matches {w : CmdWord} {a : OpcodeRow} (ha : a ∈ commandRows) (hmatch : w &&& a.mask = a.pattern) :
    opField w = opField a.pattern := by
  have hmask : ∀ a ∈ commandRows, opField a.mask = BitVec.allOnes 4 := by decide
  have hand : opField (w &&& a.mask) = opField w &&& opField a.mask := BitVec.extractLsb'_and ..
  rw [← hmatch, hand, hmask a ha, BitVec.and_allOnes]

/-- No two rows of the table overlap: their operation codes differ. -/
theorem row_eq_of_matches {w : CmdWord} {a b : OpcodeRow} (ha : a ∈ commandRows) (hb : b ∈ commandRows)
    (hma : w &&& a.mask = a.pattern) (hmb : w &&& b.mask = b.pattern) : a = b := by
  have hcodes : ∀ a ∈ commandRows, ∀ b ∈ commandRows, opField a.pattern = opField b.pattern → a = b := by decide
  exact hcodes a ha b hb ((opField_of_matches ha hma).symm.trans (opField_of_matches hb hmb))

/-- A word that decodes matches the row of the operation's mnemonic. -/
theorem matches_of_decode {w : CmdWord} {i : Instr} (h : decode (.command w) = .ok i) :
    ∃ a ∈ commandRows, w &&& a.mask = a.pattern ∧ a.mnemonic = i.mnemonic := by
  obtain ⟨op, n, hn, hop, harg, hrow, -, -⟩ := decodeCommand_ok_format h
  have hw := w.isLt
  exact ⟨_, hrow, (formatRow_matches_iff w _ (by omega) hn).mpr ⟨hop, harg⟩, rfl⟩

/-- A word that matches a row is legal. -/
theorem legal_of_matches {w : CmdWord} {a : OpcodeRow} (ha : a ∈ commandRows) (hmatch : w &&& a.mask = a.pattern) :
    ¬ illegalWord w := by
  simp only [commandRows_eq, List.mem_cons, List.not_mem_nil, or_false] at ha
  unfold illegalWord
  rcases ha with rfl | rfl | rfl | rfl | rfl | rfl | rfl <;>
    (obtain ⟨hop, harg⟩ := (formatRow_matches_iff w _ (by decide) (by decide)).mp hmatch; omega)

/-- Settles O40: the codes tell the rows apart, a decoded word matches its row, and a word that matches one is legal. -/
theorem tableRowsAgreeWithDecoder : Obligations.TableRowsAgreeWithDecoder := by
  unfold Obligations.TableRowsAgreeWithDecoder
  refine ⟨fun w a ha b hb => row_eq_of_matches ha hb, fun w i => matches_of_decode, fun w a ha hmatch => ?_⟩
  obtain ⟨i, hd, -⟩ := decode_command_ok_of_legal (legal_of_matches ha hmatch)
  obtain ⟨b, hb, hmb, hname⟩ := matches_of_decode hd
  obtain rfl := row_eq_of_matches ha hb hmatch hmb
  exact ⟨i, hd, hname.symm⟩

/-- Settles O41: each word is evaluated by the decoder. -/
theorem specWordsDecode : Obligations.SpecWordsDecode := by
  unfold Obligations.SpecWordsDecode
  decide

end Sys2Proof.Machine

/-! The assembler (spec 30_encoding.md R56, R57). -/

namespace Sys2Proof.Machine

/-- The operation a name and its operands stand for, by itself or as a pseudo-operation (30_encoding.md R56, R57). -/
def Names (name : List Char) (ops : List Int) (i : Instr) : Prop :=
  operationOf name ops = some i ∨ ∃ q : Pseudo, pseudoOf name ops = some q ∧ q.expand = i

/-- An operation that is named carries the numbers written, with a rotate of 0 added for MIX2. -/
theorem Names.operands {name : List Char} {ops : List Int} {i : Instr} (h : Names name ops i) :
    operandsOf i = if name = ['M', 'I', 'X', '2'] then ops ++ [0] else ops := by
  rcases h with hop | ⟨q, hq, rfl⟩
  · obtain ⟨hops, hname⟩ := operationOf_operands hop
    rw [hops, if_neg hname]
  · exact (pseudoOf_operands hq).1

theorem not_names_nil (ops : List Int) (i : Instr) : ¬ Names [] ops i := by
  simp [Names, operationOf, pseudoOf]

theorem lineName_of_empty {line : List Char} (h : (lineText line).isEmpty = true) : lineName line = [] := by
  rw [lineName, List.isEmpty_iff.mp h]; rfl

/-- A line that names an operation assembles to it exactly when its operands are in range. -/
theorem assembleLine_of_names {line : List Char} {ops : List Int} {i : Instr} (hops : lineOperands line = some ops)
    (h : Names (lineName line) ops i) : assembleLine line = checkedLine i := by
  have htext : (lineText line).isEmpty = false :=
    Bool.eq_false_iff.mpr fun hempty => not_names_nil ops i (lineName_of_empty hempty ▸ h)
  rw [assembleLine, htext, hops]
  rcases h with hop | ⟨q, hq, rfl⟩
  · simp [hop]
  · obtain ⟨-, hnone⟩ := pseudoOf_operands hq
    simp [hnone, hq]

/-- A line that assembles to an operation names it, with operands in range. -/
theorem names_of_assembleLine {line : List Char} {i : Instr} (h : assembleLine line = .op i) :
    i.WellFormed ∧ ∃ ops, lineOperands line = some ops ∧ Names (lineName line) ops i := by
  unfold assembleLine at h
  split at h
  · cases h
  split at h
  · cases h
  next ops hops =>
  split at h
  next j _ hop =>
    obtain ⟨rfl, hwf⟩ := checkedLine_op h
    exact ⟨hwf, ops, hops, .inl hop⟩
  next q _ hq =>
    obtain ⟨rfl, hwf⟩ := checkedLine_op h
    exact ⟨hwf, ops, hops, .inr ⟨q, hq, rfl⟩⟩
  · cases h

/-- Settles O42: a line gets the checked form of the operation it names, and assembles to nothing else. -/
theorem assemblerRefusesOutOfRange : Obligations.AssemblerRefusesOutOfRange := by
  unfold Obligations.AssemblerRefusesOutOfRange
  refine ⟨fun line ops i hops hnames hwf => ?_, fun line i h => ?_⟩
  · exact (assembleLine_of_names hops hnames).trans (checkedLine_refused hwf)
  · obtain ⟨hwf, ops, hops, hnames⟩ := names_of_assembleLine h
    exact ⟨hwf, decodeOfEncode i hwf, ops, hops, hnames.operands⟩

end Sys2Proof.Machine

/-! Edge events and elapsed time (spec 40_decoder.md R58 to R62, 70_reset_and_hazards.md sections 2 and 3). -/

namespace Sys2Proof.Machine

/-- Without a wrap of the counter the elapsed time is the plain distance of the ticks (40_decoder.md R59). -/
theorem elapsedUs_of_le {P : Params} {cur lt : Nat} (hcur : cur < P.tickPeriod) (h : lt ≤ cur) :
    elapsedUs P cur lt = 4 * (cur - lt) := by
  have hcast := elapsedUs_cast P cur lt
  rw [Int.emod_eq_of_lt (by omega) (by omega)] at hcast
  omega

/-- Across one wrap of the counter a whole period is added (40_decoder.md R59). -/
theorem elapsedUs_of_wrap {P : Params} {cur lt : Nat} (hlt : lt < P.tickPeriod) (h : cur < lt) :
    elapsedUs P cur lt = 4 * (cur + P.tickPeriod - lt) := by
  have hcast := elapsedUs_cast P cur lt
  rw [← Int.add_emod_right, Int.emod_eq_of_lt (by omega) (by omega)] at hcast
  omega

/-- The elapsed time sees both ticks only modulo the period. -/
theorem elapsedUs_mod (P : Params) (cur lt : Nat) :
    elapsedUs P (cur % P.tickPeriod) (lt % P.tickPeriod) = elapsedUs P cur lt := by
  simp only [elapsedUs, Int.natCast_mod, ← Int.sub_emod]

/-- An edge `dt` ticks after another, less than a period later, measures the whole distance. -/
theorem elapsedUs_add {P : Params} {dt : Nat} (h : dt < P.tickPeriod) (t : Nat) :
    elapsedUs P ((t + dt) % P.tickPeriod) (t % P.tickPeriod) = 4 * dt := by
  have hshift : elapsedUs P (t + dt) t = elapsedUs P dt 0 := by simp [elapsedUs]
  rw [elapsedUs_mod, hshift, elapsedUs_of_le h (Nat.zero_le dt), Nat.sub_zero]

/-- Settles O4: a multiple of 4 below four periods, and the distance with or without one wrap. -/
theorem elapsedTimeInMicroseconds : Obligations.ElapsedTimeInMicroseconds := by
  unfold Obligations.ElapsedTimeInMicroseconds
  intro P cur lt hcur hlt
  have hmod := elapsedUs_mod_four P cur lt
  have hbound := elapsedUs_lt P cur lt
  exact ⟨hmod, by omega, elapsedUs_of_le hcur, elapsedUs_of_wrap hlt⟩

/-- Settles O5: the width is stored without loss; a multiple of 4 below a threshold of at most 65536 is at most
65532. -/
theorem storedWidthFits : Obligations.StoredWidthFits := by
  unfold Obligations.StoredWidthFits
  intro P tick d hidx hpulse
  obtain ⟨-, hval, -⟩ := edgeEvent_pulse_stored hpulse hidx
  have hmod := elapsedUs_mod_four P (tick % P.tickPeriod) d.lt.toNat
  have hgap := P.syncGapUs_le
  exact ⟨hval, by omega⟩

/-- What a sync gap and the pulses after it leave: they fill the slots from 0 in order, without loss (R62). -/
theorem foldl_gap_pulses {P : Params} {gap : Nat} {ticks : List Nat} {d : Decoder}
    (hgap : P.syncGapUs ≤ elapsedUs P (gap % P.tickPeriod) d.lt.toNat)
    (hpulses : AllPulses P (edgeWidths P (gap % P.tickPeriod) ticks)) :
    ((gap :: ticks).foldl (fun d t => d.edgeEvent P t) d).idx.val = min ticks.length 6 ∧
    ∀ i : Fin 6, if i.val < ticks.length then
        (edgeWidths P (gap % P.tickPeriod) ticks)[i.val]? =
          some (((gap :: ticks).foldl (fun d t => d.edgeEvent P t) d).ch.get i).toNat
      else ((gap :: ticks).foldl (fun d t => d.edgeEvent P t) d).ch.get i = d.ch.get i := by
  obtain ⟨hidx, hch⟩ := edgeEvent_of_gap hgap
  have hidx0 : (d.edgeEvent P gap).idx.val = 0 := congrArg Fin.val hidx
  have hlt := edgeEvent_lt P gap d
  have hlen := edgeWidths_length P (gap % P.tickPeriod) ticks
  obtain ⟨hidx', hget⟩ := foldl_pulses P ticks (d.edgeEvent P gap) (by rwa [hlt])
  simp only [hidx0, hlt, hch, Nat.zero_le, if_true, Nat.sub_zero] at hget
  refine ⟨by rw [List.foldl_cons, hidx', hidx0, Nat.zero_add], fun i => ?_⟩
  rw [List.foldl_cons, hget]
  split
  · next hi =>
    have hi' : i.val < (edgeWidths P (gap % P.tickPeriod) ticks).length := by omega
    rw [List.getElem?_eq_getElem hi', Option.map_some, Option.getD_some, pulse_fits (hpulses _ (List.getElem_mem hi'))]
  · next hi => rw [List.getElem?_eq_none (by omega), Option.map_none, Option.getD_none]

/-- Settles O6: the run is the gap and the pulses on U1, and takes its presentations from the list. -/
theorem resynchronisation : Obligations.Resynchronisation := by
  unfold Obligations.Resynchronisation
  intro s gap ticks rest P start widths hinputs hgap hpulses
  obtain ⟨hidx, hch⟩ := foldl_gap_pulses hgap hpulses
  rw [List.length_map] at hidx
  simp only [List.length_map] at hch
  exact ⟨_, run_edges (gap :: ticks) s rest hinputs, rfl, rfl, hidx, hch⟩

/-- Settles O7: with no slot open from the start, the pulses of the run fill none. -/
theorem pulsesDroppedWhileAwaitingSync : Obligations.PulsesDroppedWhileAwaitingSync := by
  unfold Obligations.PulsesDroppedWhileAwaitingSync
  intro s ticks rest hinputs hidx hpulses
  obtain ⟨hidx', hget⟩ := foldl_pulses _ _ _ hpulses
  refine ⟨_, run_edges ticks s rest hinputs, Frame.ext_get fun i => ?_, ?_, rfl, rfl⟩
  · have hi := i.isLt
    rw [hget, if_neg (by omega)]
  · rw [hidx']; omega

/-- Edges at distances below a period measure those distances. -/
theorem edgeWidths_ticksAfter {P : Params} {dts : List Nat} (h : ∀ dt ∈ dts, dt < P.tickPeriod) (t : Nat) :
    edgeWidths P (t % P.tickPeriod) (ticksAfter t dts) = dts.map (4 * ·) := by
  induction dts generalizing t with
  | nil => rfl
  | cons dt dts ih =>
    rw [List.forall_mem_cons] at h
    obtain ⟨hdt, hdts⟩ := h
    rw [ticksAfter, edgeWidths, elapsedUs_add hdt, ih hdts, List.map_cons]

/-- Settles O8: the pulses of a conforming frame are shorter than the gap and a period, so each measures its own
distance. -/
theorem conformingFrameDecoded : Obligations.ConformingFrameDecoded := by
  unfold Obligations.ConformingFrameDecoded
  intro P d gap dts hthreshold ⟨hlen, hrange⟩ hgap
  have hspan := P.syncGapUs_le_span
  have hwidths := edgeWidths_ticksAfter (P := P) (dts := dts) (fun dt hdt => by have := hrange dt hdt; omega) gap
  have hpulses : AllPulses P (edgeWidths P (gap % P.tickPeriod) (ticksAfter gap dts)) := by
    rw [hwidths]
    exact List.forall_mem_map.mpr fun dt hdt => by have := hrange dt hdt; omega
  obtain ⟨hidx, hch⟩ := foldl_gap_pulses hgap hpulses
  rw [ticksAfter_length] at hidx
  refine ⟨by rw [hidx]; omega, fun i => ?_⟩
  have hi := hch i
  rw [ticksAfter_length, hwidths] at hi
  split
  · next hlt => simpa [hlt, eq_comm] using hi
  · next hge => rwa [if_neg hge] at hi

/-- Settles O9: an edge event reduces its tick before it does anything else. -/
theorem tickAliasing : Obligations.TickAliasing := by
  unfold Obligations.TickAliasing
  intro tick k s
  rw [exec_edge, exec_edge, Decoder.edgeEvent, Nat.add_mul_mod_self_right, ← Decoder.edgeEvent]

/-- Settles O10: `lt` is 0 after reset, so the reduced tick is the elapsed time; a pulse is dropped, as `idx` is 6. -/
theorem firstEdgeMeasuresFromZero : Obligations.FirstEdgeMeasuresFromZero := by
  unfold Obligations.FirstEdgeMeasuresFromZero
  intro P tick d
  have hel : elapsedUs P (tick % P.tickPeriod) State.reset.u1.lt.toNat = 4 * (tick % P.tickPeriod) :=
    elapsedUs_of_le (P.cur_lt tick) (Nat.zero_le _)
  rw [← hel]
  by_cases hgap : P.syncGapUs ≤ elapsedUs P (tick % P.tickPeriod) State.reset.u1.lt.toNat
  · obtain ⟨hidx, hch⟩ := edgeEvent_of_gap hgap
    exact ⟨hch, edgeEvent_lt P tick _, by rw [if_pos hgap]; exact congrArg Fin.val hidx⟩
  · obtain ⟨hch, hidx⟩ := edgeEvent_pulse_dropped (not_le.mp hgap) rfl
    exact ⟨hch, edgeEvent_lt P tick _, by rw [if_neg hgap]; exact hidx⟩

end Sys2Proof.Machine

/-! Shapes of the mapping strategies (spec 42_mapper.md sections 2 and 3). -/

namespace Sys2Proof.Machine

/-- The signed magnitude is odd about the centre in the clamped width. -/
theorem sgnMagnitude_neg {v w : Nat} (h : clamp v + clamp w = 3000) : sgnMagnitude v = -sgnMagnitude w := by
  rcases lt_or_ge 1550 (clamp w) with habove | hle
  · rw [sgnMagnitude_of_above habove, sgnMagnitude_of_below (by omega)]
    congr 3; omega
  rcases lt_or_ge (clamp w) 1450 with hbelow | hge
  · rw [sgnMagnitude_of_below hbelow, sgnMagnitude_of_above (by omega), neg_neg]
    congr 2; omega
  · rw [sgnMagnitude_of_deadZone hge hle, sgnMagnitude_of_deadZone (by omega) (by omega), neg_zero]

/-- The signed magnitude does not decrease with the width: not within its three ranges, nor from one to the next. -/
theorem sgnMagnitude_mono {v w : Nat} (h : v ≤ w) : sgnMagnitude v ≤ sgnMagnitude w := by
  have hclamp := clamp_mono h
  rcases lt_or_ge 1550 (clamp v) with habove | hle
  · rw [sgnMagnitude_of_above habove, sgnMagnitude_of_above (by omega)]
    omega
  rcases lt_or_ge (clamp w) 1450 with hbelow | hge
  · rw [sgnMagnitude_of_below hbelow, sgnMagnitude_of_below (by omega)]
    omega
  calc sgnMagnitude v ≤ 0 := by
        rcases lt_or_ge (clamp v) 1450 with hv | hv
        · rw [sgnMagnitude_of_below hv]; omega
        · rw [sgnMagnitude_of_deadZone hv hle]
    _ ≤ sgnMagnitude w := by
        rcases lt_or_ge 1550 (clamp w) with hw | hw
        · rw [sgnMagnitude_of_above hw]; omega
        · rw [sgnMagnitude_of_deadZone hge hw]

/-- One microsecond beyond the dead zone still rounds to 0. -/
theorem sgnMagnitude_eq_zero_iff (v : Nat) : sgnMagnitude v = 0 ↔ 1449 ≤ v ∧ v ≤ 1551 := by
  have hclamp := clamp_eq v
  rcases lt_or_ge 1550 (clamp v) with habove | hle
  · rw [sgnMagnitude_of_above habove]; omega
  rcases lt_or_ge (clamp v) 1450 with hbelow | hge
  · rw [sgnMagnitude_of_below hbelow]; omega
  · exact iff_of_true (sgnMagnitude_of_deadZone hge hle) (by omega)

/-- Settles O18: the shape of the signed magnitude, range by range, and two values. -/
theorem signedMapperShape : Obligations.SignedMapperShape := by
  unfold Obligations.SignedMapperShape
  refine ⟨sgnMagnitude_eq_zero_iff, by decide, by decide, fun k hk => sgnMagnitude_neg ?_,
    fun v w => sgnMagnitude_mono⟩
  simp only [clamp_eq]; omega

theorem linMagnitude_mono {v w : Nat} (h : v ≤ w) : linMagnitude v ≤ linMagnitude w :=
  Nat.div_le_div_right (Nat.mul_le_mul_right _ (Nat.sub_le_sub_right (clamp_mono h) _))

/-- The folded magnitude is symmetric about the centre in the clamped width. -/
theorem foldMagnitude_symm {v w : Nat} (h : clamp v + clamp w = 3000) : foldMagnitude v = foldMagnitude w := by
  rw [foldMagnitude_eq, foldMagnitude_eq]
  congr 2; omega

/-- Settles O19: the ranges of the three strategies, the two shapes, and the two results of the fourth. -/
theorem mapperRangesAndShapes : Obligations.MapperRangesAndShapes := by
  unfold Obligations.MapperRangesAndShapes
  refine ⟨fun v => ⟨linMagnitude_le v, foldMagnitude_le v, sgnMagnitude_bounds v⟩, fun v w => linMagnitude_mono,
    fun k hk => foldMagnitude_symm ?_, fun v p => ?_⟩
  · simp only [clamp_eq]; omega
  · rw [hysMagnitude_eq]
    exact ite_eq_or_eq ..

/-- Settles O20: outside the band the result is the folded magnitude, at least 3 away; fed back, it stays. -/
theorem hysteresisMovesByThree : Obligations.HysteresisMovesByThree := by
  unfold Obligations.HysteresisMovesByThree
  intro v p
  by_cases hband : ((foldMagnitude v : Int) - p).natAbs ≤ 2
  · have hkeep : hysMagnitude v p = p := by rw [hysMagnitude_eq, if_pos hband]
    rw [hkeep, hkeep]
    exact ⟨fun hne => absurd rfl hne, fun _ => rfl, rfl⟩
  · have hmove : hysMagnitude v p = foldMagnitude v := by rw [hysMagnitude_eq, if_neg hband]
    rw [hmove]
    exact ⟨fun _ => by omega, fun h => absurd h hband, by simp [hysMagnitude_eq]⟩

end Sys2Proof.Machine

/-! Guarantees of the mixer (spec 43_mixer.md section 3). -/

namespace Sys2Proof.Machine

/-- Scaling keeps the order of values. -/
theorem tdiv_mono {a b : Int} {m : Nat} (hm : 0 < m) (h : a ≤ b) : tdiv a m ≤ tdiv b m := by
  rw [tdiv_eq, tdiv_eq]
  exact Int.tdiv_le_tdiv (by omega) h

/-- The absolute value of an output that is scaled is the quotient rounded down (R85). -/
theorem normalise_get_natAbs {w : Wheels} (h : w.peak > 255) (k : Fin 4) :
    ((normalise w).get k).natAbs = (w.get k).natAbs * 255 / w.peak := by
  rw [normalise_get, if_pos h, tdiv_natAbs, Int.natAbs_mul]
  rfl

/-- A wheel at the peak of the sums is driven at full magnitude when the sums are scaled. -/
theorem normalise_get_of_peak {w : Wheels} (h : w.peak > 255) {k : Fin 4} (hk : (w.get k).natAbs = w.peak) :
    ((normalise w).get k).natAbs = 255 := by
  rw [normalise_get_natAbs h, hk, Nat.mul_div_cancel_left 255 (by omega)]

/-- When the sums are scaled the peak of the outputs is 255. -/
theorem normalise_peak {w : Wheels} (h : w.peak > 255) : (normalise w).peak = 255 := by
  obtain ⟨k, hk⟩ := exists_peak w
  obtain ⟨j, hj⟩ := exists_peak (normalise w)
  have hle := normalise_get_natAbs_le w j
  have hge := natAbs_le_peak (normalise w) k
  rw [normalise_get_of_peak h hk] at hge
  omega

theorem normalise_get_mono {w : Wheels} {j k : Fin 4} (h : w.get j ≤ w.get k) :
    (normalise w).get j ≤ (normalise w).get k := by
  rw [normalise_get, normalise_get]
  split
  · exact tdiv_mono (by omega) (by omega)
  · exact h

theorem normalise_get_neg {w : Wheels} {j k : Fin 4} (h : w.get j = -w.get k) :
    (normalise w).get j = -(normalise w).get k := by
  rw [normalise_get, normalise_get, h, Int.neg_mul, tdiv_neg]
  split <;> rfl

theorem normalise_get_nonneg {w : Wheels} {k : Fin 4} (h : 0 ≤ w.get k) : 0 ≤ (normalise w).get k := by
  rw [normalise_get]
  split
  · exact tdiv_nonneg _ (by omega)
  · exact h

theorem normalise_get_nonpos {w : Wheels} {k : Fin 4} (h : w.get k ≤ 0) : (normalise w).get k ≤ 0 := by
  rw [normalise_get]
  split
  · have hneg := tdiv_nonneg w.peak (show 0 ≤ -(w.get k * 255) by omega)
    rw [tdiv_neg] at hneg
    omega
  · exact h

/-- A sum below one 255th of the peak gives 0, scaled or not. -/
theorem normalise_get_eq_zero {w : Wheels} {k : Fin 4} (h : (w.get k).natAbs * 255 < w.peak) :
    (normalise w).get k = 0 := by
  by_cases hpeak : w.peak > 255
  · rw [← Int.natAbs_eq_zero, normalise_get_natAbs hpeak, Nat.div_eq_of_lt h]
  · rw [normalise_get, if_neg hpeak]
    omega

/-- The two inequalities of the quotient rounded toward zero (R85). -/
theorem normalise_get_floor {w : Wheels} (h : w.peak > 255) (k : Fin 4) :
    ((normalise w).get k).natAbs * w.peak ≤ (w.get k).natAbs * 255 ∧
    (w.get k).natAbs * 255 < (((normalise w).get k).natAbs + 1) * w.peak := by
  rw [normalise_get_natAbs h]
  exact ⟨Nat.div_mul_le_self _ _, Nat.lt_mul_of_div_lt (Nat.lt_succ_self _) (by omega)⟩

/-- Settles O22: the guarantees hold of `normalise` on any four values, so on the sums of any three operands. -/
theorem mixGuarantees : Obligations.MixGuarantees := by
  unfold Obligations.MixGuarantees
  intro f s r j k x y
  have hrange : (y.get k).natAbs ≤ 255 := normalise_get_natAbs_le x k
  exact ⟨by omega, fun h => ⟨normalise_peak h, normalise_get_of_peak h⟩, normalise_get_nonneg, normalise_get_nonpos,
    normalise_get_eq_zero, normalise_get_mono, normalise_get_neg, fun h => normalise_get_floor h k⟩

theorem forall_mem_three {p : Int → Prop} {f s r : Int} (h : ∀ x ∈ [f, s, r], p x) : p f ∧ p s ∧ p r := by
  simpa using h

/-- The sum of a wheel, one of four (R83). -/
theorem mixSums_get_cases (f s r : Int) (k : Fin 4) :
    (mixSums f s r).get k = f + s + r ∨ (mixSums f s r).get k = f - s - r ∨
    (mixSums f s r).get k = f - s + r ∨ (mixSums f s r).get k = f + s - r := by
  fin_cases k
  exacts [.inl rfl, .inr (.inl rfl), .inr (.inr (.inl rfl)), .inr (.inr (.inr rfl))]

/-- Sums of three `i16` operands fit 18 bits (43_mixer.md section 3). -/
theorem mixSums_get_bounds {f s r : Int} (h : ∀ x ∈ [f, s, r], -32768 ≤ x ∧ x ≤ 32767) (k : Fin 4) :
    -98304 ≤ (mixSums f s r).get k ∧ (mixSums f s r).get k ≤ 98303 := by
  obtain ⟨hf, hs, hr⟩ := forall_mem_three h
  have hcases := mixSums_get_cases f s r k
  omega

/-- Settles O25: the bounds of the sums, of which one is the peak. -/
theorem mixWidths : Obligations.MixWidths := by
  unfold Obligations.MixWidths
  intro f s r k
  constructor
  · intro h
    obtain ⟨j, hj⟩ := exists_peak (mixSums f s r)
    have hbounds := mixSums_get_bounds h k
    have hpeak := mixSums_get_bounds h j
    omega
  · intro h
    obtain ⟨hf, hs, hr⟩ := forall_mem_three h
    have hcases := mixSums_get_cases f s r k
    omega

/-- Without rotation the wheels a and d have one sum, and so have b and c. -/
theorem mixSums_without_rotation (f s : Int) :
    (mixSums f s 0).get 0 = (mixSums f s 0).get 3 ∧ (mixSums f s 0).get 1 = (mixSums f s 0).get 2 :=
  ⟨by simp [mixSums, Wheels.get], by simp [mixSums, Wheels.get]⟩

/-- Settles O23: equal sums give equal outputs, and each output is a field of the response. -/
theorem mixWithoutRotation : Obligations.MixWithoutRotation := by
  unfold Obligations.MixWithoutRotation
  intro f s σ
  obtain ⟨had, hbc⟩ := mixSums_without_rotation f s
  have hfield := wheelsResult_slice (normalise (mixSums f s 0))
  refine ⟨_, exec_mix f s 0 σ, (hfield 0).trans (.trans ?_ (hfield 3).symm),
    (hfield 1).trans (.trans ?_ (hfield 2).symm)⟩
  · rw [normalise_get, normalise_get, had]
  · rw [normalise_get, normalise_get, hbc]

/-- Settles O24: an output of MIX has a magnitude of at most 255, and the contract splits on its sign. -/
theorem wheelCommandsDriveMotors : Obligations.WheelCommandsDriveMotors := by
  unfold Obligations.WheelCommandsDriveMotors
  intro f s r k y
  have hrange : y.natAbs ≤ 255 := normalise_get_natAbs_le _ k
  rcases lt_trichotomy 0 y with hpos | hzero | hneg
  · rw [driveOf, if_pos hpos]
    exact ⟨by omega, by omega, hrange⟩
  · rw [← hzero]; rfl
  · rw [driveOf, if_neg (by omega), if_pos hneg]
    exact ⟨by omega, by omega, hrange⟩

end Sys2Proof.Machine

/-! What each kind of presentation does to the state (spec 30_encoding.md R40, R43; 60_exceptions.md R91, R98). -/

namespace Sys2Proof.Machine

/-- A command's answer is a function of the channel table, constant but for SNAP, and nothing else changes (R19). -/
theorem exec_command_answer {i : Instr} (h : ∀ tick, i ≠ .edge tick) :
    ∃ answer : Frame → RspWord, (∀ s : State, exec i s = .next (s.answer (answer s.u1.ch))) ∧
      (i = .snap → answer = frameResult) ∧ (i ≠ .snap → ∀ f g, answer f = answer g) := by
  rcases exec_cases i with ⟨tick, hi⟩ | rfl | ⟨data, -, hsnap, hexec⟩
  · exact absurd hi (h tick)
  · exact ⟨frameResult, exec_snap, fun _ => rfl, fun hne => absurd rfl hne⟩
  · exact ⟨fun _ => data, hexec, fun hi => absurd hi hsnap, fun _ _ _ => rfl⟩

/-- A command word gets one response, a function of the channel table: an error exactly when the word is illegal, the
frame result for SNAP, and otherwise the same for every table. -/
theorem step_command (cmd : CmdWord) : ∃ answer : Frame → Response,
    (∀ (s : State) (rest : List Presentation), s.inputs = .one (.command cmd) :: rest →
      step s = .next { s with inputs := rest, responses := s.responses ++ [answer s.u1.ch] }) ∧
    (∀ f, ((answer f).err = true ↔ illegalWord cmd) ∧ ((answer f).err = true → (answer f).data = 0#144)) ∧
    (decode (.command cmd) = .ok .snap → ∀ f, answer f = ⟨false, frameResult f⟩) ∧
    (decode (.command cmd) ≠ .ok .snap → ∀ f g, answer f = answer g) := by
  have hillegal := decode_command_illegal_iff cmd
  cases hd : decode (.command cmd) with
  | illegal why =>
    have hill : illegalWord cmd := hillegal.mp ⟨why, hd⟩
    exact ⟨fun _ => ⟨true, 0#144⟩, rejected_of_decode_illegal hd, fun _ => ⟨iff_of_true rfl hill, fun _ => rfl⟩, nofun,
      fun _ _ _ => rfl⟩
  | ok i =>
    have hlegal : ¬ illegalWord cmd := fun hill => by
      obtain ⟨why, hwhy⟩ := hillegal.mpr hill
      exact nomatch hd.symm.trans hwhy
    obtain ⟨answer, hexec, hsnap, hother⟩ := exec_command_answer (decodeCommand_ne_edge hd)
    refine ⟨fun f => ⟨false, answer f⟩, fun s rest hs => ?_, fun _ => ⟨iff_of_false nofun hlegal, nofun⟩,
      fun hi f => ?_, fun hne f g => ?_⟩
    · rw [step_command_ok hs hd, hexec]; rfl
    · rw [hsnap (Decoded.ok.inj hi)]
    · exact congrArg (Response.mk false) (hother (fun hi => hne (congrArg Decoded.ok hi)) f g)

/-- Settles O32: the one response to a command word, and an edge event, which makes none. -/
theorem oneResponsePerCommand : Obligations.OneResponsePerCommand := by
  unfold Obligations.OneResponsePerCommand
  constructor
  · intro s cmd rest hs
    obtain ⟨answer, hstep, herr, -, -⟩ := step_command cmd
    exact ⟨answer s.u1.ch, hstep s rest hs, herr s.u1.ch⟩
  · intro s tick rest hs
    exact ⟨_, step_edge hs, rfl, rfl⟩

/-- Settles O34: the answer is a function of the channel table, which is constant unless the command is SNAP. -/
theorem commandsSeeOnlyTheChannels : Obligations.CommandsSeeOnlyTheChannels := by
  unfold Obligations.CommandsSeeOnlyTheChannels
  intro i s s' hedge hch
  obtain ⟨answer, hexec, -, hother⟩ := exec_command_answer hedge
  have heq : answer s.u1.ch = answer s'.u1.ch := by
    by_cases hsnap : i = .snap
    · rw [hch hsnap]
    · exact hother hsnap _ _
  exact ⟨⟨false, answer s.u1.ch⟩, hexec s, by rw [heq]; exact hexec s'⟩

/-- An edge event writes no slot but the one `idx` names (40_decoder.md R58). -/
theorem edgeEvent_get_of_ne (P : Params) (tick : Nat) {d : Decoder} {j : Fin 6} (h : j.val ≠ d.idx.val) :
    (d.edgeEvent P tick).ch.get j = d.ch.get j := by
  by_cases hpulse : elapsedUs P (tick % P.tickPeriod) d.lt.toNat < P.syncGapUs
  · obtain ⟨-, hget⟩ := edgeEvent_of_pulse hpulse
    rw [hget, if_neg h]
  · obtain ⟨-, hch⟩ := edgeEvent_of_gap (not_lt.mp hpulse)
    rw [hch]

/-- Settles O30: the command answers on the channel table after the edge event in one order, before it in the other. -/
theorem orderMattersOnlyToSnap : Obligations.OrderMattersOnlyToSnap := by
  unfold Obligations.OrderMattersOnlyToSnap
  intro s tick cmd rest
  obtain ⟨answer, hstep, herr, hsnap, hother⟩ := step_command cmd
  refine ⟨_, _, answer _, answer s.u1.ch, (run_next (step_edge rfl) 1).trans (run_next (hstep _ rest rfl) 0),
    (run_next (hstep _ _ rfl) 1).trans (run_next (step_edge rfl) 0), rfl, rfl, rfl, rfl, rfl, ?_,
    fun hne => hother hne _ _, fun j hj => ?_⟩
  · rw [Bool.eq_iff_iff, (herr _).1, (herr _).1]
  · by_cases hs : decode (.command cmd) = .ok .snap
    · rw [hsnap hs, hsnap hs, frameResult_slice, frameResult_slice, edgeEvent_get_of_ne _ _ hj]
    · rw [hother hs _ s.u1.ch]

/-- Settles O31: with nothing presented nothing changes, and a command changes the responses only. -/
theorem onlyEdgeAndResetWriteU1 : Obligations.OnlyEdgeAndResetWriteU1 := by
  unfold Obligations.OnlyEdgeAndResetWriteU1
  intro s t hstep hu1
  match hs : s.inputs with
  | [] => exact absurd (by rw [step_idle hs] at hstep; cases hstep; rfl) hu1
  | .reset :: rest => exact ⟨rest, .inl rfl⟩
  | .one (.edge tick) :: rest => exact ⟨rest, .inr (.inl ⟨tick, rfl⟩)⟩
  | .both tick cmd :: rest => exact ⟨rest, .inr (.inr ⟨tick, cmd, rfl⟩)⟩
  | .one (.command cmd) :: rest =>
    obtain ⟨answer, hcommand, -⟩ := step_command cmd
    exact absurd (by rw [hcommand s rest hs] at hstep; cases hstep; rfl) hu1

/-- Settles O28: one presented word is decoded and its operation executed, whichever port it is on. -/
theorem stepRunsDecodedOperation : Obligations.StepRunsDecodedOperation := by
  unfold Obligations.StepRunsDecodedOperation
  intro s p rest i hs hd
  cases p with
  | edge w =>
    obtain rfl := Decoded.ok.inj hd
    rw [step_edge hs, exec_edge]
  | command w => exact step_command_ok hs hd

/-- Settles O29: the free value picks one of the two orders. -/
theorem simultaneousEitherOrder : Obligations.SimultaneousEitherOrder := by
  unfold Obligations.SimultaneousEitherOrder
  intro s tick cmd rest hs
  rw [step_both hs]
  by_cases hfirst : Config.edgeFirst s.arbs = true
  · exact .inl (by rw [if_pos hfirst])
  · exact .inr (by rw [if_neg hfirst])

/-- Settles O27: an edge event answers a next state without a response, a command one with its answer. -/
theorem operationsAlwaysComplete : Obligations.OperationsAlwaysComplete := by
  unfold Obligations.OperationsAlwaysComplete
  intro i s
  by_cases hedge : ∃ tick, i = .edge tick
  · obtain ⟨tick, rfl⟩ := hedge
    exact ⟨_, exec_edge tick s, rfl, rfl, .inl rfl⟩
  · obtain ⟨data, hexec⟩ := exec_command (not_exists.mp hedge) s
    exact ⟨_, hexec, rfl, rfl, .inr ⟨⟨false, data⟩, rfl, rfl⟩⟩

/-- Settles O2: the reset step puts `Decoder.reset` in place of U1. -/
theorem resetInputRestoresU1 : Obligations.ResetInputRestoresU1 := by
  unfold Obligations.ResetInputRestoresU1
  intro s rest hs
  exact ⟨_, step_reset hs, Decoder.reset_ch_get, rfl, rfl, rfl, rfl, rfl⟩

end Sys2Proof.Machine

/-! What runs keep (spec 40_decoder.md section 2, 70_reset_and_hazards.md sections 1 and 4). -/

namespace Sys2Proof.Machine

/-- A step keeps the responses presented so far and adds at most one. -/
theorem step_responses (s : State) : ∃ t, step s = .next t ∧ s.responses <+: t.responses := by
  obtain ⟨t, hstep, ⟨-, hr⟩ | ⟨-, hr⟩ | ⟨-, -, hr⟩ | ⟨-, r, hr, -⟩⟩ := step_cases s
  · exact ⟨t, hstep, [], by simp [hr]⟩
  · exact ⟨t, hstep, [], by simp [hr]⟩
  · exact ⟨t, hstep, [], by simp [hr]⟩
  · exact ⟨t, hstep, [r], hr.symm⟩

/-- Settles O33: by induction on the number of steps. -/
theorem responsesAreNeverChanged : Obligations.ResponsesAreNeverChanged := by
  unfold Obligations.ResponsesAreNeverChanged
  intro n
  induction n with
  | zero => exact fun s => ⟨s, run_zero s, [], List.append_nil _⟩
  | succ n ih =>
    intro s
    obtain ⟨t, hstep, ht⟩ := step_responses s
    obtain ⟨u, hrun, hu⟩ := ih t
    exact ⟨u, (run_next hstep n).trans hrun, ht.trans hu⟩

/-- A step with no command to take leaves the responses alone and takes one presentation, if there is one. -/
theorem step_without_command {s : State} (h : ∀ x ∈ s.inputs, x = .reset ∨ ∃ tick, x = .one (.edge tick)) :
    ∃ t, step s = .next t ∧ t.responses = s.responses ∧ t.inputs = s.inputs.drop 1 := by
  cases hs : s.inputs with
  | nil => exact ⟨s, step_idle hs, rfl, hs⟩
  | cons x rest =>
    rcases h x (by rw [hs]; exact List.mem_cons_self) with rfl | ⟨tick, rfl⟩
    · exact ⟨_, step_reset hs, rfl, rfl⟩
    · exact ⟨_, step_edge hs, rfl, rfl⟩

/-- Settles O43: by induction on the number of steps, the presentations left over still holding no command. -/
theorem noResponseBeforeCommand : Obligations.NoResponseBeforeCommand := by
  unfold Obligations.NoResponseBeforeCommand
  intro n
  induction n with
  | zero => exact fun s _ => ⟨s, run_zero s, rfl, rfl⟩
  | succ n ih =>
    intro s h
    obtain ⟨t, hstep, htr, hti⟩ := step_without_command h
    obtain ⟨u, hrun, hur, hui⟩ := ih t fun x hx => h x (List.mem_of_mem_drop (hti ▸ hx))
    exact ⟨u, (run_next hstep n).trans hrun, hur.trans htr, by rw [hui, hti, List.drop_drop, Nat.add_comm]⟩

end Sys2Proof.Machine
